-- ==== Sys2Proof/Word.lean ====
section
/-! DEFINITION. The word types of blankcpu CORE: every quantity is a byte (R10, R30, R32), but for the program
counter, which is one bit wider so that it can rest at 256 (R13). -/

namespace Sys2Proof

/-- A byte, 8 bits, unsigned 0 to 255 (R6): a register value, a memory cell, an opcode, an operand. -/
abbrev Byte := BitVec 8

/-- An address of `mem`, 8 bits (R30): by its type no address outside the space 0 to 255 exists. -/
abbrev Addr := BitVec 8

/-- The program counter, PC_WIDTH = 9 bits, legal values 0 to 256 (R5, R13). -/
abbrev PcWord := BitVec 9

end Sys2Proof
end

