-- ==== Sys2Proof/Config.lean ====
section
/-! DEFINITION. The parameters of the hardware (R5). All but one are constants of this hardware; the one the spec
leaves OPEN, `IN_EOF_VALUE`, has no body. -/

namespace Sys2Proof.Config

/-- NUM_REGS (R5, R10). -/
abbrev numRegs : Nat := 8

/-- MEM_SIZE, in bytes (R5, R30). -/
abbrev memSize : Nat := 256

/-- CMP_DELAY, what CMP writes to the countdown (R5, R133; 90_conflicts.md C1; log 9). -/
def cmpDelay : BitVec 2 := 2

/-- MEM_FILL, the value of a memory cell that the image does not cover (R5, R37; D11; log 4). -/
def memFill : Byte := 0x00

/-- IN_EOF_VALUE, what IN writes at end of input: OPEN, one byte, the same at every end-of-input IN (R5, R125; D13;
log 3). No body: every claim holds whatever byte it is. -/
opaque inEofValue : Byte

end Sys2Proof.Config
end

