-- ==== Sys2Proof/Syntax.lean ====
section
/-! DEFINITION. The instruction set (R55): one constructor for each of the sixteen rows of spec/opcode_table.json,
operands in memory order. Every operand is a whole byte (R51 to R53), so that every encoding has a term: a register
operand of 8 to 255 is an instruction that faults when it executes (R52), not an encoding that does not decode. -/

namespace Sys2Proof

/-- One instruction of blankcpu CORE with its operand bytes. -/
inductive Instr where
  /-- `MOV reg_dst, reg_src` (R90). -/
  | mov (dst src : Byte)
  /-- `PUT reg_dst, imm8` (R91). -/
  | put (dst imm : Byte)
  /-- `ADD reg_dst, reg_src` (R101). -/
  | add (dst src : Byte)
  /-- `SUB reg_dst, reg_src` (R102). -/
  | sub (dst src : Byte)
  /-- `MUL reg_dst, reg_src` (R103). -/
  | mul (dst src : Byte)
  /-- `DIV reg_dst, reg_src` (R104). -/
  | div (dst src : Byte)
  /-- `OR reg_dst, reg_src` (R111). -/
  | or (dst src : Byte)
  /-- `AND reg_dst, reg_src` (R112). -/
  | and (dst src : Byte)
  /-- `XOR reg_dst, reg_src` (R113). -/
  | xor (dst src : Byte)
  /-- `OUT reg_src` (R124). -/
  | out (src : Byte)
  /-- `IN reg_dst` (R125); `in` alone is a word of Lean. -/
  | in_ (dst : Byte)
  /-- `JMP addr8` (R131). -/
  | jmp (target : Addr)
  /-- `JEQ reg_unused, addr8` (R132). -/
  | jeq (unused : Byte) (target : Addr)
  /-- `CMP reg_a, reg_b` (R133). -/
  | cmp (a b : Byte)
  /-- `NOP` (R140). -/
  | nop
  /-- `HLT` (R141). -/
  | hlt
deriving DecidableEq, Repr

end Sys2Proof
end

