-- ==== Sys2Proof/Decode.lean ====
section
/-! DEFINITION. The instruction encoding (30_encoding.md): the opcode map, the formats, the decoder, total on any
byte string and rejecting by name, and after it the encoder. -/

namespace Sys2Proof

/-- The sixteen mnemonics of the opcode map (R55), without operands. -/
inductive Opcode where
  | mov | put | add | sub | mul | div | or | and | xor | out | in_ | jmp | jeq | cmp | nop | hlt
deriving DecidableEq, Repr

/-- The six formats (R51). -/
inductive Format where
  /-- one byte, no operand -/
  | n
  /-- one register operand -/
  | r
  /-- one address operand -/
  | a
  /-- two register operands -/
  | rr
  /-- a register and a literal -/
  | ri
  /-- an ignored byte and an address -/
  | xa
deriving DecidableEq, Repr

/-- Why a byte string does not begin with an instruction. -/
inductive DecodeError where
  /-- The first byte is none of the sixteen opcodes (R57). -/
  | illegalOpcode (op : Byte)
  /-- The bytes end before the opcode or before the last operand byte. -/
  | truncated
deriving DecidableEq, Repr

/-- Every row of the opcode map, in its order (R55). -/
def Opcode.all : List Opcode :=
  [.mov, .put, .add, .sub, .mul, .div, .or, .and, .xor, .out, .in_, .jmp, .jeq, .cmp, .nop, .hlt]

/-- The "opcode" column of the opcode map (R55). -/
def Opcode.byte : Opcode → Byte
  | .mov => 0xA0
  | .put => 0xA1
  | .add => 0xB0
  | .sub => 0xB1
  | .mul => 0xB2
  | .div => 0xB3
  | .or  => 0xC0
  | .and => 0xC1
  | .xor => 0xC2
  | .out => 0xD0
  | .in_ => 0xD1
  | .jmp => 0xE0
  | .jeq => 0xE1
  | .cmp => 0xE2
  | .nop => 0xFE
  | .hlt => 0xFF

/-- The "format" column of the opcode map (R55). -/
def Opcode.format : Opcode → Format
  | .mov | .add | .sub | .mul | .div | .or | .and | .xor | .cmp => .rr
  | .put => .ri
  | .out | .in_ => .r
  | .jmp => .a
  | .jeq => .xa
  | .nop | .hlt => .n

/-- The number of operand bytes of a format: its length in R51 less the opcode byte. -/
def Format.operandBytes : Format → Nat
  | .n => 0
  | .r | .a => 1
  | .rr | .ri | .xa => 2

/-- The number of operand bytes an opcode byte fixes, 0, 1 or 2 (R50, R54). -/
def Opcode.operandBytes (o : Opcode) : Nat := o.format.operandBytes

/-- The mnemonic as the assembly language spells it (R55, R63). -/
def Opcode.mnemonic : Opcode → String
  | .mov => "MOV"
  | .put => "PUT"
  | .add => "ADD"
  | .sub => "SUB"
  | .mul => "MUL"
  | .div => "DIV"
  | .or  => "OR"
  | .and => "AND"
  | .xor => "XOR"
  | .out => "OUT"
  | .in_ => "IN"
  | .jmp => "JMP"
  | .jeq => "JEQ"
  | .cmp => "CMP"
  | .nop => "NOP"
  | .hlt => "HLT"

/-- The opcode a byte selects, comparing the whole byte (R56, R74); `none` for the 240 illegal values (R57). -/
def Opcode.ofByte? (b : Byte) : Option Opcode := Opcode.all.find? fun o => o.byte == b

/-- The instruction of an opcode and its operand bytes, first `b1`, then `b2` (R51). An operand byte the format does
not have is not read. -/
def Opcode.instr (o : Opcode) (b1 b2 : Byte) : Instr :=
  match o with
  | .mov => .mov b1 b2
  | .put => .put b1 b2
  | .add => .add b1 b2
  | .sub => .sub b1 b2
  | .mul => .mul b1 b2
  | .div => .div b1 b2
  | .or  => .or b1 b2
  | .and => .and b1 b2
  | .xor => .xor b1 b2
  | .out => .out b1
  | .in_ => .in_ b1
  | .jmp => .jmp b1
  | .jeq => .jeq b1 b2
  | .cmp => .cmp b1 b2
  | .nop => .nop
  | .hlt => .hlt

/-- The instruction at the head of a byte string and the bytes after it (R54). -/
def decode : List Byte → Except DecodeError (Instr × List Byte)
  | [] => .error .truncated
  | op :: bytes =>
    match Opcode.ofByte? op with
    | none => .error (.illegalOpcode op)
    | some o =>
      match o.operandBytes, bytes with
      | 0, rest => .ok (o.instr 0 0, rest)
      | 1, b1 :: rest => .ok (o.instr b1 0, rest)
      | 2, b1 :: b2 :: rest => .ok (o.instr b1 b2, rest)
      | _, _ => .error .truncated

/-- The opcode of an instruction. -/
def Instr.opcode : Instr → Opcode
  | .mov _ _ => .mov
  | .put _ _ => .put
  | .add _ _ => .add
  | .sub _ _ => .sub
  | .mul _ _ => .mul
  | .div _ _ => .div
  | .or _ _ => .or
  | .and _ _ => .and
  | .xor _ _ => .xor
  | .out _ => .out
  | .in_ _ => .in_
  | .jmp _ => .jmp
  | .jeq _ _ => .jeq
  | .cmp _ _ => .cmp
  | .nop => .nop
  | .hlt => .hlt

/-- The length of an instruction in bytes, 1, 2 or 3, a function of its opcode alone (R50). -/
def Instr.length (i : Instr) : Nat := 1 + i.opcode.operandBytes

/-- The bytes of an instruction in memory order, opcode first (R51, R63). -/
def encode : Instr → List Byte
  | .mov d s => [0xA0, d, s]
  | .put d v => [0xA1, d, v]
  | .add d s => [0xB0, d, s]
  | .sub d s => [0xB1, d, s]
  | .mul d s => [0xB2, d, s]
  | .div d s => [0xB3, d, s]
  | .or d s => [0xC0, d, s]
  | .and d s => [0xC1, d, s]
  | .xor d s => [0xC2, d, s]
  | .out s => [0xD0, s]
  | .in_ d => [0xD1, d]
  | .jmp t => [0xE0, t]
  | .jeq u t => [0xE1, u, t]
  | .cmp a b => [0xE2, a, b]
  | .nop => [0xFE]
  | .hlt => [0xFF]

/-- The three bytes of the longest instruction, from a number whose bits 7..0 are the first byte, with every bit at or
above `nbits` zero. -/
def wordBytes (nbits w : Nat) : List Byte :=
  let v := w % 2 ^ nbits
  [BitVec.ofNat 8 v, BitVec.ofNat 8 (v / 256), BitVec.ofNat 8 (v / 65536)]

/-- The instruction the decoder reads from the number `w` of `nbits` bits, bit 0 the least significant bit of the
first byte. -/
def decodeTableWord (nbits w : Nat) : Option Instr :=
  match decode (wordBytes nbits w) with
  | .ok (i, _) => some i
  | .error _ => none

end Sys2Proof
end

