-- ==== Sys2Proof/Machine/State.lean ====
section
/-! DEFINITION. The state of the core (10_state.md) with the two byte streams beside it (R23), the reasons a step can
stop, and the state right after reset (R24, R180). -/

namespace Sys2Proof.Machine

/-- The contents of `mem` (R22, R30): the cells that differ from MEM_FILL, addresses strictly rising. -/
abbrev Memory := List Host.Cell

/-- The canonical form from address `lo` on: addresses rise strictly from `lo` and stay inside the 256 cells, and no
listed cell holds MEM_FILL. -/
def Memory.wfFrom (lo : Nat) : Memory → Bool
  | [] => true
  | (a, v) :: m =>
    decide (lo ≤ a) && decide (a < Config.memSize) && decide (v ≠ Config.memFill) && Memory.wfFrom (a + 1) m

/-- The canonical form of a memory, so that equal memories are equal lists. -/
def Memory.wf (m : Memory) : Bool := Memory.wfFrom 0 m

/-- The four runtime faults with what each reports (R151). They are architectural: raising one is a next state that
records it and halts (R153), so none of them is a `Fault` below. -/
inductive RuntimeFault where
  /-- The byte fetched as an opcode is none of the sixteen (R74). -/
  | illegalOpcode (op : Byte)
  /-- An operand byte used as a register index is 8 or more (R76). -/
  | registerIndexOutOfRange (operand : Byte)
  /-- A fetch is attempted with `pc` at 256 (R72). -/
  | pcOutOfBounds
  /-- DIV with the divisor register holding 0 (R104). -/
  | divideByZero
deriving DecidableEq, Repr

/-- The machine of R25: the core state of 10_state.md and the two streams of the environment. -/
structure State where
  /-- The general registers `x[0]` to `x[7]` (R10). -/
  x : Vector Byte 8
  /-- The program counter: the address of the next byte to fetch (R13). -/
  pc : PcWord
  /-- The only condition flag (R16). -/
  equalFlag : Bool
  /-- The countdown that expires the flag, legal values 0 to 2 (R17). -/
  flagClearDelay : BitVec 2
  /-- The terminal state (R18). -/
  halted : Bool
  /-- Which fault halted the core, 0 for none (R19, R151). -/
  faultCode : BitVec 3
  /-- The one byte the fault reports (R19, R151). -/
  faultInfo : Byte
  /-- The memory (R22). -/
  mem : Memory
  /-- The bytes of the input stream not yet taken; the empty list is the end-of-input mark (R122). -/
  input : List Byte
  /-- The bytes emitted so far, first to last (R121). -/
  output : List Byte
deriving DecidableEq, Repr

/-- Reasons for which a step stops with no state: NONE. Every condition the spec calls a fault halts the core and is
recorded in `faultCode` and `faultInfo` (R150, R153), which is a next state, and every address is inside the memory by
its type (R30). No constructor, so nobody raises one: safe (log 1). -/
inductive Fault where
deriving DecidableEq, Repr

/-- Reasons for which the model gives no state. -/
inductive Refusal where
  /-- Raised by an arm of `exec` whose instruction has no meaning yet; no arm does. Safe. -/
  | notModelled (mnemonic : String)
  /-- Raised by the host action that loads an image of more than 256 bytes: no launch (R38). Safe. -/
  | imageTooLong (bytes : Nat)
  /-- Raised by a host action outside the time R166 allows it (U10): the model gives the host no such move. Safe. -/
  | hostActionNotAllowed
deriving DecidableEq, Repr

/-- What a step or a meaning answers. -/
abbrev StepOutcome := Host.Outcome State Fault Refusal

/-- The machine right after reset (R24, R180), with no image loaded, so that every cell reads MEM_FILL (R37; log 4),
and the streams as before a launch: no input given, no output made (log 5). -/
def State.reset : State where
  x := Vector.replicate 8 0x00
  pc := 0
  equalFlag := false
  flagClearDelay := 0
  halted := false
  faultCode := 0
  faultInfo := 0x00
  mem := []
  input := []
  output := []

end Sys2Proof.Machine
end

