-- ==== Sys2Proof/Machine/Ops.lean ====
section
/-! DEFINITION. The named operations over memory, registers, the program counter and the streams (R7), raising a fault
(R153), the one exception entry of this hardware, and reset (R180), the only way out of it (R157, R160). -/

namespace Sys2Proof.Machine

/-! ## Memory -/

/-- The byte listed for address `a`, MEM_FILL where none is. -/
def Memory.lookup : Memory → Nat → Byte
  | [], _ => Config.memFill
  | (k, v) :: m, a => if k = a then v else Memory.lookup m a

/-- `MemRead(addr, 1)` (R7, R34): one byte, no side effect. -/
def Memory.read (m : Memory) (a : Addr) : Byte := m.lookup a.toNat

/-- Put a byte at address `a`, keeping the canonical form: writing MEM_FILL removes the cell from the list. -/
def Memory.insert : Memory → Nat → Byte → Memory
  | [], a, v => if v = Config.memFill then [] else [(a, v)]
  | (k, w) :: m, a, v =>
    if a < k then
      if v = Config.memFill then (k, w) :: m else (a, v) :: (k, w) :: m
    else if a = k then
      if v = Config.memFill then m else (a, v) :: m
    else
      (k, w) :: Memory.insert m a v

/-- `MemWrite(addr, 1, v)` (R7). No instruction uses it (R35): it serves the host's load alone. -/
def Memory.write (m : Memory) (a : Addr) (v : Byte) : Memory := m.insert a.toNat v

/-- The memory that holds the given bytes at consecutive addresses from `a` and MEM_FILL elsewhere. -/
def Memory.ofBytesFrom (a : Nat) : List Byte → Memory
  | [] => []
  | v :: vs => if v = Config.memFill then Memory.ofBytesFrom (a + 1) vs else (a, v) :: Memory.ofBytesFrom (a + 1) vs

/-! ## Registers and program counter -/

/-- `x[i]` (R7). -/
def State.reg (s : State) (i : Fin 8) : Byte := s.x[i]

/-- `x[i] <- v` (R7). All eight registers are alike; none discards a write (R10). -/
def State.setReg (s : State) (i : Fin 8) (v : Byte) : State := { s with x := s.x.set i v }

/-- `pc <- target` (R7). -/
def State.setPc (s : State) (target : PcWord) : State := { s with pc := target }

/-! ## Streams -/

/-- `Out(v)` (R121): append the byte to the output stream. -/
def State.emit (s : State) (v : Byte) : State := { s with output := s.output ++ [v] }

/-- What `In()` finds (R122): the next byte, or `none` for the end-of-input mark. -/
def State.nextInput? (s : State) : Option Byte := s.input.head?

/-- What `In()` leaves (R122): the position moves past the byte found; at the mark it does not move. -/
def State.dropInput (s : State) : State := { s with input := s.input.tail }

/-! ## Faults, halting and reset -/

/-- The `fault_code` of a fault (R151). -/
def RuntimeFault.code : RuntimeFault → BitVec 3
  | .illegalOpcode _ => 1
  | .registerIndexOutOfRange _ => 2
  | .pcOutOfBounds => 3
  | .divideByZero => 4

/-- The `fault_info` of a fault (R151). -/
def RuntimeFault.info : RuntimeFault → Byte
  | .illegalOpcode op => op
  | .registerIndexOutOfRange operand => operand
  | .pcOutOfBounds => 0x00
  | .divideByZero => 0x00

/-- `halted <- 1` (R141, R153). -/
def State.halt (s : State) : State := { s with halted := true }

/-- `raise F(info)` (R153): record the fault and halt; control goes to no address and nothing is saved (R157). -/
def State.raise (s : State) (f : RuntimeFault) : State :=
  { s.halt with faultCode := f.code, faultInfo := f.info }

/-- Reset as the host's action on any state (R180): the core state takes the values of R24, memory and streams stay as
they are (R182). -/
def State.hostReset (s : State) : State :=
  { State.reset with mem := s.mem, input := s.input, output := s.output }

end Sys2Proof.Machine
end

