-- ==== Sys2Proof/Machine/Operands.lean ====
section
/-! DEFINITION. The operand forms (R52, R53): register index, literal, address. The ignored byte of JEQ has no form: no
operation reads it (R58). -/

namespace Sys2Proof.Machine

/-- `RegIdx(b)` (R76): the whole byte is the index (R52); 8 or more names no register. -/
def regIdx? (b : Byte) : Option (Fin 8) :=
  if h : b.toNat < Config.numRegs then some ⟨b.toNat, h⟩ else none

/-- Use one register operand: go on with its index, or raise `RegisterIndexOutOfRange` with the operand byte (R76). -/
def withReg (b : Byte) (s : State) (k : Fin 8 → StepOutcome) : StepOutcome :=
  match regIdx? b with
  | some i => k i
  | none => .next (s.raise (.registerIndexOutOfRange b))

/-- Use two register operands, `b1` checked before `b2`, before anything is read or written (R76, R78). -/
def withTwoRegs (b1 b2 : Byte) (s : State) (k : Fin 8 → Fin 8 → StepOutcome) : StepOutcome :=
  withReg b1 s fun i => withReg b2 s fun j => k i j

/-- `imm8` as an operand: the byte as it stands (R53). -/
def immediate (b : Byte) : Byte := b

/-- `addr8` as a jump target: `zext_9` of the byte (R53, R130). -/
def jumpTarget (a : Addr) : PcWord := a.setWidth 9

end Sys2Proof.Machine
end

