-- ==== Sys2Proof/Machine/Arith.lean ====
section
/-! DEFINITION. The arithmetic family, opcode group 0xB (42_arith.md): exact integer results on unsigned bytes, kept
modulo 256 (R100). No flag is written. -/

namespace Sys2Proof.Machine

/-- The sum modulo 256 (R101, R105). -/
def aluAdd (a b : Byte) : Byte := BitVec.ofNat 8 ((a.toNat + b.toNat) % 256)

/-- The difference modulo 256, the first operand the minuend (R102, R105). -/
def aluSub (a b : Byte) : Byte := BitVec.ofNat 8 ((a.toNat + 256 - b.toNat) % 256)

/-- The low 8 bits of the exact product (R103, R105). -/
def aluMul (a b : Byte) : Byte := BitVec.ofNat 8 ((a.toNat * b.toNat) % 256)

/-- The floor of the unsigned quotient, for a divisor that is not 0 (R104, R105; log 10). -/
def aluDiv (a b : Byte) : Byte := BitVec.ofNat 8 (a.toNat / b.toNat)

/-- A two-register operation of the arithmetic and bitwise families: `x[d]` is the first input and the destination,
and both inputs are read before the write (R77, R110). -/
def binaryOp (f : Byte → Byte → Byte) (b1 b2 : Byte) (s : State) : StepOutcome :=
  withTwoRegs b1 b2 s fun d r => .next (s.setReg d (f (s.reg d) (s.reg r)))

/-- `ADD reg_dst, reg_src` (R101). -/
def execAdd (b1 b2 : Byte) (s : State) : StepOutcome := binaryOp aluAdd b1 b2 s

/-- `SUB reg_dst, reg_src` (R102). -/
def execSub (b1 b2 : Byte) (s : State) : StepOutcome := binaryOp aluSub b1 b2 s

/-- `MUL reg_dst, reg_src` (R103). -/
def execMul (b1 b2 : Byte) (s : State) : StepOutcome := binaryOp aluMul b1 b2 s

/-- `DIV reg_dst, reg_src` (R104): both indices are checked before the divisor (R78), and a divisor of 0 raises
`DivideByZero` with the destination unchanged. -/
def execDiv (b1 b2 : Byte) (s : State) : StepOutcome :=
  withTwoRegs b1 b2 s fun d r =>
    if (s.reg r).toNat = 0 then .next (s.raise .divideByZero)
    else .next (s.setReg d (aluDiv (s.reg d) (s.reg r)))

end Sys2Proof.Machine
end

