-- ==== Sys2Proof/Machine/Flags.lean ====
section
/-! DEFINITION. Every flag computation of the hardware: the expiry phase (R71) and what CMP writes (R133). No other
instruction computes a flag (R16, R17). -/

namespace Sys2Proof.Machine

/-- Phase 1 of a step, the expiry phase (R71): count `flag_clear_delay` down when it is above 0, and clear
`equal_flag` when it reaches 0. -/
def State.expire (s : State) : State :=
  if s.flagClearDelay = 0 then s
  else if s.flagClearDelay - 1 = 0 then { s with flagClearDelay := 0, equalFlag := false }
  else { s with flagClearDelay := s.flagClearDelay - 1 }

/-- CMP's comparison (R133): equality of the two bytes only. -/
def compareEqual (a b : Byte) : Bool := decide (a.toNat = b.toNat)

/-- CMP's writes (R133): the flag takes the comparison's result, the countdown CMP_DELAY whatever it was. -/
def State.armFlag (s : State) (equal : Bool) : State :=
  { s with equalFlag := equal, flagClearDelay := Config.cmpDelay }

end Sys2Proof.Machine
end

