-- ==== Sys2Proof/Machine/Control.lean ====
section
/-! DEFINITION. Control flow and compare, opcode group 0xE (45_control.md). -/

namespace Sys2Proof.Machine

/-- `JMP addr8` (R131). -/
def execJmp (b1 : Addr) (s : State) : StepOutcome := .next (s.setPc (jumpTarget b1))

/-- `JEQ reg_unused, addr8` (R132): the first operand byte is not read; the flag is the one the expiry phase of this
step left, and is not changed. -/
def execJeq (_b1 : Byte) (b2 : Addr) (s : State) : StepOutcome :=
  if s.equalFlag then .next (s.setPc (jumpTarget b2)) else .next s

/-- `CMP reg_a, reg_b` (R133). -/
def execCmp (b1 b2 : Byte) (s : State) : StepOutcome :=
  withTwoRegs b1 b2 s fun a b => .next (s.armFlag (compareEqual (s.reg a) (s.reg b)))

end Sys2Proof.Machine
end

