-- ==== Sys2Proof/Machine/InOut.lean ====
section
/-! DEFINITION. The input and output family, opcode group 0xD (44_io.md). Waiting for the host is invisible in the
state (R123; log 5). -/

namespace Sys2Proof.Machine

/-- `OUT reg_src` (R124): one byte to the output stream, as it stands. -/
def execOut (b1 : Byte) (s : State) : StepOutcome :=
  withReg b1 s fun r => .next (s.emit (s.reg r))

/-- `IN reg_dst` (R125): the index is checked before the stream is touched; the register always takes a value, the
byte `In()` found or, at the end of input, IN_EOF_VALUE (log 3). -/
def execIn (b1 : Byte) (s : State) : StepOutcome :=
  withReg b1 s fun d => .next (s.dropInput.setReg d (s.nextInput?.getD Config.inEofValue))

end Sys2Proof.Machine
end

