-- ==== Sys2Proof/Machine/Logic.lean ====
section
/-! DEFINITION. The bitwise family, opcode group 0xC (43_logic.md). No flag is written (R110). -/

namespace Sys2Proof.Machine

/-- `OR reg_dst, reg_src` (R111). -/
def execOr (b1 b2 : Byte) (s : State) : StepOutcome := binaryOp (fun a b => a ||| b) b1 b2 s

/-- `AND reg_dst, reg_src` (R112). -/
def execAnd (b1 b2 : Byte) (s : State) : StepOutcome := binaryOp (fun a b => a &&& b) b1 b2 s

/-- `XOR reg_dst, reg_src` (R113). -/
def execXor (b1 b2 : Byte) (s : State) : StepOutcome := binaryOp (fun a b => a ^^^ b) b1 b2 s

end Sys2Proof.Machine
end

