-- ==== Sys2Proof/Machine/Move.lean ====
section
/-! DEFINITION. The move family, opcode group 0xA (41_move.md). Each meaning is the execute phase: `pc` already points
past the instruction (R75). -/

namespace Sys2Proof.Machine

/-- `MOV reg_dst, reg_src` (R90). -/
def execMov (b1 b2 : Byte) (s : State) : StepOutcome :=
  withTwoRegs b1 b2 s fun d r => .next (s.setReg d (s.reg r))

/-- `PUT reg_dst, imm8` (R91): `b2` is never checked. -/
def execPut (b1 b2 : Byte) (s : State) : StepOutcome :=
  withReg b1 s fun d => .next (s.setReg d (immediate b2))

end Sys2Proof.Machine
end

