-- ==== Sys2Proof/Machine/System.lean ====
section
/-! DEFINITION. No-operation and halt, opcode group 0xF (46_system.md). -/

namespace Sys2Proof.Machine

/-- `NOP` (R140): the execute phase does nothing. -/
def execNop (s : State) : StepOutcome := .next s

/-- `HLT` (R141): a normal halt, the fault record stays as it is. -/
def execHlt (s : State) : StepOutcome := .next s.halt

end Sys2Proof.Machine
end

