-- ==== Sys2Proof/Machine/Dispatch.lean ====
section
/-! DEFINITION. The execute phase of every instruction (R77): one arm per row of the opcode map. -/

namespace Sys2Proof.Machine

def exec (i : Instr) (s : State) : Host.Outcome State Fault Refusal :=
  match i with
  | .mov b1 b2 => Sys2Proof.Machine.execMov b1 b2 s
  | .put b1 b2 => Sys2Proof.Machine.execPut b1 b2 s
  | .add b1 b2 => Sys2Proof.Machine.execAdd b1 b2 s
  | .sub b1 b2 => Sys2Proof.Machine.execSub b1 b2 s
  | .mul b1 b2 => Sys2Proof.Machine.execMul b1 b2 s
  | .div b1 b2 => Sys2Proof.Machine.execDiv b1 b2 s
  | .or b1 b2 => Sys2Proof.Machine.execOr b1 b2 s
  | .and b1 b2 => Sys2Proof.Machine.execAnd b1 b2 s
  | .xor b1 b2 => Sys2Proof.Machine.execXor b1 b2 s
  | .out b1 => Sys2Proof.Machine.execOut b1 s
  | .in_ b1 => Sys2Proof.Machine.execIn b1 s
  | .jmp b1 => Sys2Proof.Machine.execJmp b1 s
  | .jeq b1 b2 => Sys2Proof.Machine.execJeq b1 b2 s
  | .cmp b1 b2 => Sys2Proof.Machine.execCmp b1 b2 s
  | .nop => Sys2Proof.Machine.execNop s
  | .hlt => Sys2Proof.Machine.execHlt s

end Sys2Proof.Machine
end

