-- ==== Sys2Proof/Machine/Cycle.lean ====
section
/-! DEFINITION. The fetch-decode-execute cycle (40_execution_cycle.md): one loop iteration of R70. -/

namespace Sys2Proof.Machine

/-- What a phase of a step leaves: a value and the state, or (`error`) the state of a step that a `raise` has ended. -/
abbrev Phase (α : Type) := Except State (α × State)

/-- `Fetch()` (R72): the byte at `pc`, `pc` moved past it; at 256 no memory is read and `pc` stays. -/
def fetch (s : State) : Phase Byte :=
  if Config.memSize ≤ s.pc.toNat then .error (s.raise .pcOutOfBounds)
  else .ok (s.mem.read (s.pc.setWidth 8), s.setPc (s.pc + 1))

/-- Phase 3b, the operand fetch (R75): all operand bytes are fetched before anything is executed or checked. -/
def fetchOperands (o : Opcode) (s : State) : Phase Instr :=
  match o.operandBytes with
  | 0 => .ok (o.instr 0 0, s)
  | 1 =>
    match fetch s with
    | .error t => .error t
    | .ok (b1, s1) => .ok (o.instr b1 0, s1)
  | _ =>
    match fetch s with
    | .error t => .error t
    | .ok (b1, s1) =>
      match fetch s1 with
      | .error t => .error t
      | .ok (b2, s2) => .ok (o.instr b1 b2, s2)

/-- Phases 2 and 3 (R73 to R75): the opcode byte, its decoding, its operand bytes. -/
def fetchInstr (s : State) : Phase Instr :=
  match fetch s with
  | .error t => .error t
  | .ok (op, s1) =>
    match Opcode.ofByte? op with
    | none => .error (s1.raise (.illegalOpcode op))
    | some o => fetchOperands o s1

/-- `Step()` (R70): expiry phase, fetch, decode, execute. A halted core runs no iteration and nothing changes
(R18, V-FLT-12; log 2). -/
def runCycle (s : State) : StepOutcome :=
  if s.halted then .next s
  else
    match fetchInstr s.expire with
    | .error t => .next t
    | .ok (i, t) => exec i t

/-- Store bytes at consecutive addresses from `a` on; bytes that would lie beyond address 255 are dropped. -/
def storeBytes (m : Memory) (a : Nat) : List Byte → Memory
  | [] => m
  | v :: vs => if a < Config.memSize then storeBytes (m.write (BitVec.ofNat 8 a) v) (a + 1) vs else m

/-- The state whose next step fetches the instruction `w` of `nbits` bits: its bytes stand at `pc` and the core is
running (log 8). -/
def placeWord (s : State) (nbits w : Nat) : State :=
  { s with mem := storeBytes s.mem s.pc.toNat (wordBytes nbits w), halted := false }

end Sys2Proof.Machine
end

