-- ==== Sys2Proof/Machine/Step.lean ====
section
/-! DEFINITION. The step of the machine, and where a step finds its next instruction. -/

namespace Sys2Proof.Machine

/-- One step: one loop iteration (R70), one instruction (R194). -/
def step (s : State) : Host.Outcome State Fault Refusal := runCycle s

/-- `s` with the instruction `w` of `nbits` bits where the next step fetches: at `pc`. It stands for the host's load of
a program (R183; log 8). -/
def State.withFetchWord (s : State) (nbits w : Nat) : State := placeWord s nbits w

end Sys2Proof.Machine
end

