-- ==== Sys2Proof/WellFormed.lean ====
section
/-! DEFINITION. Well-formedness of an instruction: every operand byte it uses as a register index names one of the
eight registers (R52). An instruction that is not well-formed still has an encoding, decodes and runs: it raises
`RegisterIndexOutOfRange` in its execute phase (R76; log 16). -/

namespace Sys2Proof

/-- A register operand byte is legal when it is 0 to `NUM_REGS - 1` (R52). -/
def regByteOk (b : Byte) : Bool := decide (b.toNat < Config.numRegs)

/-- The operand bytes an instruction uses as register indices are legal. The `reg_unused` byte of JEQ is not an index
(R58), and `imm8` and `addr8` have no illegal value (R53). -/
def wellFormed : Instr → Bool
  | .mov d s => regByteOk d && regByteOk s
  | .put d _ => regByteOk d
  | .add d s => regByteOk d && regByteOk s
  | .sub d s => regByteOk d && regByteOk s
  | .mul d s => regByteOk d && regByteOk s
  | .div d s => regByteOk d && regByteOk s
  | .or d s => regByteOk d && regByteOk s
  | .and d s => regByteOk d && regByteOk s
  | .xor d s => regByteOk d && regByteOk s
  | .out s => regByteOk s
  | .in_ d => regByteOk d
  | .jmp _ => true
  | .jeq _ _ => true
  | .cmp a b => regByteOk a && regByteOk b
  | .nop => true
  | .hlt => true

end Sys2Proof
end

