-- ==== Sys2Proof/Machine/Assembly.lean ====
section
/-! DEFINITION. The assembly syntax as far as the encoding contract gives it (R60 to R63): one line of mnemonic and
operand tokens to the bytes of one instruction. The assembler as a program is out of scope (R4); how a line is cut into
tokens is not in the source (N12), so a line comes here already cut (log 13). -/

namespace Sys2Proof.Machine

/-- A line of assembly source (R60), cut into its tokens. -/
inductive SourceLine where
  /-- A blank line, ignored. -/
  | blank
  /-- A line that begins with `;`, ignored. -/
  | comment
  /-- A mnemonic and its operand tokens. -/
  | code (mnemonic : String) (operands : List (List Char))
deriving DecidableEq, Repr

/-- The opcode a mnemonic names (R55). -/
def opcodeOfMnemonic? (w : String) : Option Opcode := Opcode.all.find? fun o => o.mnemonic == w

/-- The value of a decimal digit. -/
def digit? (c : Char) : Option Nat := if '0' ≤ c ∧ c ≤ '9' then some (c.toNat - '0'.toNat) else none

/-- A register token: two characters, the second a decimal digit, the index (R61); the first as the source prints it,
and the digits 8 and 9 name no register (C3). -/
def registerToken? : List Char → Option Byte
  | ['R', c] =>
    match digit? c with
    | some n => if n < Config.numRegs then some (BitVec.ofNat 8 n) else none
    | none => none
  | _ => none

/-- The value of a string of decimal digits read after the digits whose value is `acc`. -/
def decimal? (acc : Nat) : List Char → Option Nat
  | [] => some acc
  | c :: cs =>
    match digit? c with
    | some n => decimal? (acc * 10 + n) cs
    | none => none

/-- An immediate or address token: a decimal integer literal 0 to 255 (R62). -/
def literalToken? (w : List Char) : Option Byte :=
  match w, decimal? 0 w with
  | [], _ => none
  | _, some n => if n < 256 then some (BitVec.ofNat 8 n) else none
  | _, none => none

/-- The bytes of one line of assembly (R63), by the format of its mnemonic; `none` for a malformed line (R64). -/
def assembleTokens (w : String) (operands : List (List Char)) : Option (List Byte) :=
  match opcodeOfMnemonic? w with
  | none => none
  | some o =>
    match o.format, operands with
    | .n, [] => some [o.byte]
    | .r, [t] => (registerToken? t).map fun r => [o.byte, r]
    | .a, [t] => (literalToken? t).map fun a => [o.byte, a]
    | .rr, [t, u] => (registerToken? t).bind fun d => (registerToken? u).map fun r => [o.byte, d, r]
    | .ri, [t, u] => (registerToken? t).bind fun d => (literalToken? u).map fun v => [o.byte, d, v]
    | .xa, [t, u] => (registerToken? t).bind fun r => (literalToken? u).map fun a => [o.byte, r, a]
    | _, _ => none

/-- The image of a source text: the bytes of its lines in order (R60); one malformed line fails the build (R64). -/
def assemble : List SourceLine → Option (List Byte)
  | [] => some []
  | .blank :: ls => assemble ls
  | .comment :: ls => assemble ls
  | .code w ts :: ls => (assembleTokens w ts).bind fun bs => (assemble ls).map fun more => bs ++ more

/-- The token of a register byte 0 to 7 (R63). -/
def registerToken (b : Byte) : List Char := ['R', Char.ofNat ('0'.toNat + b.toNat)]

/-- The token of a literal byte: its decimal digits, no leading zero (R62). -/
def literalToken (b : Byte) : List Char := Nat.toDigits 10 b.toNat

/-- The operand tokens of an instruction's line (R63). -/
def operandTokens : Instr → List (List Char)
  | .mov d s => [registerToken d, registerToken s]
  | .put d v => [registerToken d, literalToken v]
  | .add d s => [registerToken d, registerToken s]
  | .sub d s => [registerToken d, registerToken s]
  | .mul d s => [registerToken d, registerToken s]
  | .div d s => [registerToken d, registerToken s]
  | .or d s => [registerToken d, registerToken s]
  | .and d s => [registerToken d, registerToken s]
  | .xor d s => [registerToken d, registerToken s]
  | .out s => [registerToken s]
  | .in_ d => [registerToken d]
  | .jmp t => [literalToken t]
  | .jeq u t => [registerToken u, literalToken t]
  | .cmp a b => [registerToken a, registerToken b]
  | .nop => []
  | .hlt => []

/-- The operand bytes an assembler writes as register tokens all name registers (R63): well-formedness, and JEQ's
unused byte too. -/
def assemblable : Instr → Bool
  | .jeq u _ => regByteOk u
  | i => wellFormed i

end Sys2Proof.Machine
end

