-- ==== Sys2Proof/Machine/Environment.lean ====
section
/-! DEFINITION. The host beside the core (R165, R166, R180 to R183): reset, load, seed, launch, inspect, each allowed
when R166 says so and refused otherwise (U10; log 12). None of them is a step of the core. -/

namespace Sys2Proof.Machine

/-- The core with the one thing the host's rules depend on beside it: whether the core has been launched since the
last reset. `launched` is the model's own bit, not architectural state (R25; log 12). -/
structure System where
  core : State
  launched : Bool
deriving DecidableEq, Repr

/-- The host's actions on the core (R166). Supplying input during the run shows the program nothing that supplying it
at launch does not (R123), so the whole input is given at launch (R122; log 5). -/
inductive HostAction where
  /-- Reset, at any time (R180). -/
  | reset
  /-- Load an image into `mem` from address 0 (R37). -/
  | load (image : List Byte)
  /-- Seed one general register (R12, R166). -/
  | seed (i : Fin 8) (v : Byte)
  /-- Launch with the input stream (R122, R183). -/
  | launch (input : List Byte)
deriving DecidableEq, Repr

/-- What inspection gives (R165): the snapshot of the core and the dump of the 256 cells, in address order. -/
structure Snapshot where
  x : Vector Byte 8
  pc : PcWord
  equalFlag : Bool
  flagClearDelay : BitVec 2
  halted : Bool
  faultCode : BitVec 3
  faultInfo : Byte
  dump : List Byte
deriving DecidableEq, Repr

/-- A core out of reset that has not been launched. -/
def System.powerOn : System := { core := State.reset, launched := false }

/-- The contents of `mem` for an image: the image from address 0, MEM_FILL after it (R37). -/
def imageMemory (image : List Byte) : Memory := Memory.ofBytesFrom 0 image

/-- One host action (R166). An image of more than 256 bytes is refused (R38). A launch starts from a fresh input and an
empty output (R182) and happens once between resets. DESIGN CHOICE (log 12): a launch needs no load since the last
reset, it runs what `mem` holds, MEM_FILL where nothing was ever loaded; before the launch, loads and seeds may come in
any order and number. -/
def System.act (y : System) : HostAction → Host.Outcome System Fault Refusal
  | .reset => .next { core := y.core.hostReset, launched := false }
  | .load image =>
    if y.launched then .refused .hostActionNotAllowed
    else if Config.memSize < image.length then .refused (.imageTooLong image.length)
    else .next { y with core := { y.core with mem := imageMemory image } }
  | .seed i v =>
    if y.launched then .refused .hostActionNotAllowed
    else .next { y with core := y.core.setReg i v }
  | .launch input =>
    if y.launched then .refused .hostActionNotAllowed
    else .next { core := { y.core with input := input, output := [] }, launched := true }

/-- The core's part of the system: it steps once it is launched (R183), and not before. -/
def System.tick (y : System) : Host.Outcome System Fault Refusal :=
  if y.launched then
    match step y.core with
    | .next t => .next { y with core := t }
    | .fault r => .fault r
    | .refused r => .refused r
  else .next y

/-- The memory dump (R165). -/
def Memory.dump (m : Memory) : List Byte := (List.range Config.memSize).map fun a => m.read (BitVec.ofNat 8 a)

/-- Inspection (R165): before launch and after halt; a core that runs cannot be inspected (U10). It changes nothing. -/
def System.inspect (y : System) : Host.Outcome Snapshot Fault Refusal :=
  if y.launched && !y.core.halted then .refused .hostActionNotAllowed
  else .next
    { x := y.core.x, pc := y.core.pc, equalFlag := y.core.equalFlag, flagClearDelay := y.core.flagClearDelay,
      halted := y.core.halted, faultCode := y.core.faultCode, faultInfo := y.core.faultInfo, dump := y.core.mem.dump }

end Sys2Proof.Machine
end

