-- ==== Sys2Proof/Safety.lean ====
section
/-! DEFINITION. The terms claims use: the invariant of the state (R21), a legal fault record (R151), the bytes a step
can still fetch, and what a run of the machine is. -/

namespace Sys2Proof.Machine

/-- The invariants (a) to (d) of R21, and the memory in canonical form. -/
abbrev State.Inv (s : State) : Prop :=
  s.pc.toNat ≤ 256 ∧ s.flagClearDelay.toNat ≤ 2 ∧ (s.equalFlag = true → 1 ≤ s.flagClearDelay.toNat) ∧
    (s.faultCode ≠ 0 → s.halted = true) ∧ s.mem.wf = true

/-- The fault record as R151 tabulates it: codes 0 to 4, and for each the values `fault_info` can have. -/
abbrev State.FaultRecordLegal (s : State) : Prop :=
  (s.faultCode = 0 ∧ s.faultInfo = 0) ∨ (s.faultCode = 1 ∧ Opcode.ofByte? s.faultInfo = none) ∨
    (s.faultCode = 2 ∧ 8 ≤ s.faultInfo.toNat) ∨ (s.faultCode = 3 ∧ s.faultInfo = 0) ∨
    (s.faultCode = 4 ∧ s.faultInfo = 0)

/-- The bytes from `pc` to the end of memory: what the fetches of a step can still find (R31, R72). -/
def State.code (s : State) : List Byte :=
  (List.range (256 - s.pc.toNat)).map fun k => s.mem.read (BitVec.ofNat 8 (s.pc.toNat + k))

/-- The state in which the execute phase of an `n`-byte instruction runs: the expiry phase has run and `pc` has moved
past the instruction (R71, R75). -/
def State.enter (s : State) (n : Nat) : State := { s.expire with pc := s.pc + BitVec.ofNat 9 n }

/-- How a 3-byte instruction is encoded and entered (R51, R75): with its three bytes at `pc` the step runs it past
them; with the memory ending before the last operand byte the step raises `PcOutOfBounds` and runs nothing, `pc` at 256
and the expiry phase kept (the spec's own D3 and D7; log 15). -/
def RunsAs3 (op : Byte) (mk : Byte → Byte → Instr) : Prop :=
  ∀ (s : State) (b1 b2 : Byte) (rest : List Byte), s.halted = false →
    (s.code = op :: b1 :: b2 :: rest → step s = exec (mk b1 b2) (s.enter 3)) ∧
    (s.code = [op] ∨ s.code = [op, b1] → step s = .next ({ s.expire with pc := 256 }.raise .pcOutOfBounds))

/-- How a 2-byte instruction is encoded and entered (R51, R75; D3 and D7 as for 3 bytes; log 15). -/
def RunsAs2 (op : Byte) (mk : Byte → Instr) : Prop :=
  ∀ (s : State) (b1 : Byte) (rest : List Byte), s.halted = false →
    (s.code = op :: b1 :: rest → step s = exec (mk b1) (s.enter 2)) ∧
    (s.code = [op] → step s = .next ({ s.expire with pc := 256 }.raise .pcOutOfBounds))

/-- How a 1-byte instruction is encoded and entered (R51, R75). -/
def RunsAs1 (op : Byte) (i : Instr) : Prop :=
  ∀ (s : State) (rest : List Byte), s.halted = false → s.code = op :: rest → step s = exec i (s.enter 1)

/-- The index checks of an instruction with two register operands, in operand order (R76, R78; D4, D8; log 15): the instruction
then does nothing but raise. -/
def ChecksTwoIndices (mk : Byte → Byte → Instr) : Prop :=
  ∀ (b1 b2 : Byte) (s : State),
    (8 ≤ b1.toNat → exec (mk b1 b2) s = .next (s.raise (.registerIndexOutOfRange b1))) ∧
    (b1.toNat < 8 → 8 ≤ b2.toNat → exec (mk b1 b2) s = .next (s.raise (.registerIndexOutOfRange b2)))

/-- The index check of an instruction with one register operand (R76; D4; log 15). -/
def ChecksOneIndex (mk : Byte → Instr) : Prop :=
  ∀ (b1 : Byte) (s : State), 8 ≤ b1.toNat → exec (mk b1) s = .next (s.raise (.registerIndexOutOfRange b1))

/-- The operand byte that names register `i` (R52). -/
def regByte (i : Fin 8) : Byte := BitVec.ofNat 8 i.val

/-- Host actions one after another (R183). -/
def System.acts (y : System) : List HostAction → Host.Outcome System Fault Refusal
  | [] => .next y
  | a :: as =>
    match y.act a with
    | .next z => z.acts as
    | .fault r => .fault r
    | .refused r => .refused r

/-- `k` steps of the machine (R70). -/
def run (k : Nat) (s : State) : StepOutcome := Host.Core.run Sys2Proof.core k s

/-- The state an outcome answers, if it answers one. -/
def nextState? : StepOutcome → Option State
  | .next s => some s
  | .fault _ => none
  | .refused _ => none

/-- A safe state: no runtime fault has happened (R19). -/
abbrev State.NoFault (s : State) : Prop := s.faultCode = 0

/-- A safe run: after each of the first `k` steps no fault has happened. -/
def SafeRun (k : Nat) (s : State) : Prop := ∀ j ≤ k, ∃ t, run j s = .next t ∧ t.NoFault

end Sys2Proof.Machine
end

