-- ==== Sys2Proof/Certificates/Slice0/Obligations.lean ====
section
/-! DEFINITION. The statements for the provers, from the numbered rules of spec/. "The spec's own" decisions D<n> are
those of spec/92_eei_decisions.md, conflicts C<n> those of spec/90_conflicts.md, "log n" is notes/assumptions/n.md. -/

open Sys2Proof Sys2Proof.Machine

/-! ## Encoding -/

/-- The example encodings of R63, byte by byte, decode to the instructions they stand for. -/
def Obligations.PrintedEncodingsDecode : Prop :=
  decode [0xFE] = .ok (.nop, []) ∧ decode [0xA0, 0x01, 0x02] = .ok (.mov 1 2, []) ∧
  decode [0xA1, 0x00, 0x41] = .ok (.put 0 65, []) ∧ decode [0xB1, 0x00, 0x01] = .ok (.sub 0 1, []) ∧
  decode [0xB3, 0x02, 0x03] = .ok (.div 2 3, []) ∧ decode [0xC2, 0x04, 0x04] = .ok (.xor 4 4, []) ∧
  decode [0xD0, 0x00] = .ok (.out 0, []) ∧ decode [0xD1, 0x07] = .ok (.in_ 7, []) ∧
  decode [0xE0, 0x09] = .ok (.jmp 9, []) ∧ decode [0xE1, 0x00, 0x16] = .ok (.jeq 0 22, []) ∧
  decode [0xE2, 0x00, 0x02] = .ok (.cmp 0 2, []) ∧ decode [0xFF] = .ok (.hlt, [])

/-- DECODE AND ENCODE AGREE, over all sixteen instructions and every value of every operand byte: a byte string decodes
to an instruction and the bytes after it exactly when it is that instruction's encoding followed by those bytes. -/
def Obligations.DecodeAndEncodeAgree : Prop :=
  ∀ (bs rest : List Byte) (i : Instr), decode bs = .ok (i, rest) ↔ bs = encode i ++ rest

/-- R59: no two encodings mean one instruction and none means two, even with other bytes after them; mnemonics and
opcode values correspond one to one; there is no length but 1, 2 and 3. -/
def Obligations.EncodingIsOneToOne : Prop :=
  (∀ (i j : Instr) (rest rest' : List Byte), encode i ++ rest = encode j ++ rest' → i = j ∧ rest = rest') ∧
  (∀ o p : Opcode, o.byte = p.byte → o = p) ∧
  (∀ o p : Opcode, o.mnemonic = p.mnemonic → o = p) ∧
  (∀ i : Instr, (encode i).length = 1 ∨ (encode i).length = 2 ∨ (encode i).length = 3)

/-- The 240 values of the six ranges are exactly the bytes that are no opcode, and fetching one raises `IllegalOpcode`
with that byte, `pc` one past it, nothing else changed but what the expiry phase does. The spec's own: the fault
record (D6), and that the step changes nothing else and keeps its expiry phase (D7, R71 "[derived]"); log 15. -/
def Obligations.IllegalOpcodesHaltAndAreReported : Prop :=
  (∀ b : Byte, Opcode.ofByte? b = none ↔
    (b.toNat ≤ 0x9F ∨ (0xA2 ≤ b.toNat ∧ b.toNat ≤ 0xAF) ∨ (0xB4 ≤ b.toNat ∧ b.toNat ≤ 0xBF) ∨
      (0xC3 ≤ b.toNat ∧ b.toNat ≤ 0xCF) ∨ (0xD2 ≤ b.toNat ∧ b.toNat ≤ 0xDF) ∨
      (0xE3 ≤ b.toNat ∧ b.toNat ≤ 0xFD))) ∧
  ((List.range 256).filter fun n => decide (Opcode.ofByte? (BitVec.ofNat 8 n) = none)).length = 240 ∧
  (∀ (s : State) (op : Byte) (rest : List Byte), s.halted = false → s.code = op :: rest →
    Opcode.ofByte? op = none → step s = .next ((s.enter 1).raise (.illegalOpcode op)))

/-- R62 and R63, for lines already cut into tokens (log 13): the line of an instruction assembles to its encoding. -/
def Obligations.AssemblyLineGivesEncoding : Prop :=
  ∀ i : Instr, assemblable i = true → assembleTokens i.opcode.mnemonic (operandTokens i) = some (encode i)

/-! ## The cycle -/

/-- A STEP RUNS THE DECODED INSTRUCTION: if the bytes at `pc` decode to an instruction, the step is its execute phase
in the state whose expiry phase has run and whose `pc` is past the instruction. -/
def Obligations.StepRunsDecodedInstruction : Prop :=
  ∀ (s : State) (i : Instr) (rest : List Byte), s.halted = false → decode s.code = .ok (i, rest) →
    step s = exec i (s.enter i.length)

/-- A running core's step is decided by decoding the bytes from `pc` to the end of memory at once, although it fetches
them one by one: an instruction runs, an illegal opcode and running past address 255 raise their faults. While
`halted` is 1 nothing changes (log 2). The spec's own: `PcOutOfBounds` leaves `pc` at 256 (D3), the fault record (D6),
and the expiry phase and the fetches made are kept by a fault (D7, R71 "[derived]"); log 15. -/
def Obligations.StepIsDecodingOfTheRemainingMemory : Prop :=
  (∀ s : State, s.halted = false → s.pc.toNat ≤ 256 →
    step s =
      match decode s.code with
      | .ok (i, _) => exec i (s.enter i.length)
      | .error (.illegalOpcode op) => .next ((s.enter 1).raise (.illegalOpcode op))
      | .error .truncated => .next ({ s.expire with pc := 256 }.raise .pcOutOfBounds)) ∧
  (∀ s t : State, s.halted = true → step s = .next t → t = s)

/-- Every step from every state, and the execute phase of every instruction, answers a next state: the spec's faults
are states (log 1) and a halted core stays as it is (log 2). That an IN or OUT always completes is the model's choice
after the spec's own D17: waiting is not represented (log 5), while R123 lets the hardware wait in a step without end.
-/
def Obligations.EveryStepAnswersANextState : Prop :=
  (∀ s : State, ∃ t, step s = .next t) ∧ (∀ (i : Instr) (s : State), ∃ t, exec i s = .next t)

/-- The expiry phase: 2 becomes 1 and the flag stays, 1 becomes 0 and the flag is cleared, 0 does nothing, nothing else
ever changes. (That its effect is kept by a faulting step is the spec's own inference, part of
`StepIsDecodingOfTheRemainingMemory`.) -/
def Obligations.ExpiryPhaseCountsDownAndClears : Prop :=
  ∀ s : State,
    (s.flagClearDelay = 0 → s.expire = s) ∧
    (s.flagClearDelay = 1 → s.expire = { s with flagClearDelay := 0, equalFlag := false }) ∧
    (s.flagClearDelay = 2 → s.expire = { s with flagClearDelay := 1 })

/-- The spec's own choice D3: a fetch at 0 to 255 gives that memory byte and moves `pc` by one without wrapping; a
fetch attempted at 256 raises `PcOutOfBounds` and leaves `pc` at 256. -/
def Obligations.FetchReadsOrRaises : Prop :=
  ∀ s : State,
    (∀ n : Nat, n ≤ 255 → s.pc.toNat = n →
      ∃ t, fetch s = .ok (s.mem.read (BitVec.ofNat 8 n), t) ∧ t.pc.toNat = n + 1 ∧ t = { s with pc := t.pc }) ∧
    (s.pc = 256 → fetch s = .error (s.raise .pcOutOfBounds) ∧ (s.raise .pcOutOfBounds).pc = 256)

/-- The spec's own choice D4: an operand byte 0 to 7 is that register's index, 8 to 255 is none. -/
def Obligations.RegisterIndexIsTheWholeByte : Prop :=
  ∀ b : Byte, (∀ i : Fin 8, regIdx? b = some i ↔ b.toNat = i.val) ∧ (regIdx? b = none ↔ 8 ≤ b.toNat)

/-! ## Faults -/

/-- R153: raising a fault writes its code, its information byte and `halted`, and nothing else. -/
def Obligations.RaiseRecordsAndHalts : Prop :=
  ∀ (s : State) (f : RuntimeFault),
    s.raise f = { s with faultCode := f.code, faultInfo := f.info, halted := true }

/-- The codes and information bytes of the four faults: the spec's own numbering D6. -/
def Obligations.FaultCodesAndInformation : Prop :=
  ∀ b : Byte,
    (RuntimeFault.illegalOpcode b).code = 1 ∧ (RuntimeFault.illegalOpcode b).info = b ∧
    (RuntimeFault.registerIndexOutOfRange b).code = 2 ∧ (RuntimeFault.registerIndexOutOfRange b).info = b ∧
    RuntimeFault.pcOutOfBounds.code = 3 ∧ RuntimeFault.pcOutOfBounds.info = 0x00 ∧
    RuntimeFault.divideByZero.code = 4 ∧ RuntimeFault.divideByZero.info = 0x00

/-- The spec's own choice D7 (log 15): a step that faults, seen by the fault record (D6), has changed no register, no
memory and no stream, and of the flag and the countdown only what its expiry phase did. -/
def Obligations.FaultingStepIsPrecise : Prop :=
  ∀ s t : State, s.halted = false → s.faultCode = 0 → step s = .next t → t.faultCode ≠ 0 →
    t.halted = true ∧ t.x = s.x ∧ (∀ a, t.mem.read a = s.mem.read a) ∧ t.input = s.input ∧ t.output = s.output ∧
      t.equalFlag = s.expire.equalFlag ∧ t.flagClearDelay = s.expire.flagClearDelay

/-- `pc` after each fault, the spec's own inference from the order of the fetches (60_exceptions.md, "[derived]") with
its choices of where a fetch faults (D3) and of the numbers of the faults (D6); log 15. -/
def Obligations.PcAfterEachFault : Prop :=
  ∀ s t : State, s.halted = false → s.faultCode = 0 → s.pc.toNat ≤ 256 → step s = .next t →
    (t.faultCode = 3 → t.pc = 256) ∧
    (t.faultCode = 1 → t.pc.toNat = s.pc.toNat + 1) ∧
    (t.faultCode = 2 → ∃ op rest, s.code = op :: rest ∧
      t.pc.toNat = s.pc.toNat + (if op = 0xD0 ∨ op = 0xD1 then 2 else 3)) ∧
    (t.faultCode = 4 → t.pc.toNat = s.pc.toNat + 3)

/-- The order in which DIV, which can raise every fault an instruction can, finds them (the spec's own choice D8): the
operand fetches, then the first index, then the second, then the divisor. What each fault leaves is the spec's own too
(D3, D4, D6, D7); log 15. -/
def Obligations.DivFaultsInOrder : Prop :=
  ∀ s : State, s.halted = false →
    (∀ b1 : Byte, s.code = [0xB3] ∨ s.code = [0xB3, b1] →
      step s = .next ({ s.expire with pc := 256 }.raise .pcOutOfBounds)) ∧
    (∀ (b1 b2 : Byte) (rest : List Byte), s.code = 0xB3 :: b1 :: b2 :: rest → 8 ≤ b1.toNat →
      step s = .next ((s.enter 3).raise (.registerIndexOutOfRange b1))) ∧
    (∀ (d : Fin 8) (b2 : Byte) (rest : List Byte), s.code = 0xB3 :: regByte d :: b2 :: rest → 8 ≤ b2.toNat →
      step s = .next ((s.enter 3).raise (.registerIndexOutOfRange b2))) ∧
    (∀ (d r : Fin 8) (rest : List Byte), s.code = 0xB3 :: regByte d :: regByte r :: rest → s.x[r] = 0 →
      step s = .next ((s.enter 3).raise .divideByZero))

/-- Which instruction can raise which fault in its execute phase (60_exceptions.md, the table marked "[derived]"): the
index fault exactly when the instruction is not well-formed, `DivideByZero` only DIV with a zero divisor, no other (the
policy and the numbers are the spec's own, D4 and D6; log 15). -/
def Obligations.WhichInstructionRaisesWhichFault : Prop :=
  ∀ (i : Instr) (s t : State), s.faultCode = 0 → exec i s = .next t →
    (t.faultCode = 2 ↔ wellFormed i = false) ∧
    (t.faultCode = 4 ↔ ∃ d r : Fin 8, i = .div (regByte d) (regByte r) ∧ s.x[r] = 0) ∧
    (t.faultCode = 0 ∨ t.faultCode = 2 ∨ t.faultCode = 4)

/-- No number of steps changes a halted core: its registers, flag, countdown, `pc`, streams and fault record stay
(60_exceptions.md: "terminal" is D22; that a step of it answers the same state is log 2). -/
def Obligations.HaltedIsTerminal : Prop :=
  ∀ (s : State) (k : Nat), s.halted = true → run k s = .next s

/-! ## Invariants -/

/-- The invariants of 10_state.md hold at reset, with the fault record legal. -/
def Obligations.InvariantHoldsAtReset : Prop := State.reset.Inv ∧ State.reset.FaultRecordLegal

/-- EVERY STEP KEEPS THE INVARIANTS of 10_state.md: `pc` at most 256, the countdown at most 2, a set flag has a running
countdown, a fault has halted the core, and the memory stays canonical and the same ((c) is the spec's own inference). -/
def Obligations.StepKeepsInvariant : Prop :=
  ∀ s t : State, s.Inv → step s = .next t → t.Inv ∧ ∀ a, t.mem.read a = s.mem.read a

/-- Every step keeps the fault record one that the fault table gives (its numbers are the spec's own, D6). -/
def Obligations.StepKeepsFaultRecordLegal : Prop :=
  ∀ s t : State, s.FaultRecordLegal → step s = .next t → t.FaultRecordLegal

/-- The core never writes memory, in a step or in any run (only the host does, before launch: D23). -/
def Obligations.MemoryIsNeverWritten : Prop :=
  (∀ s t : State, step s = .next t → t.mem = s.mem) ∧
  (∀ (k : Nat) (s t : State), run k s = .next t → ∀ a, t.mem.read a = s.mem.read a)

/-- The fault record after `k` steps tells the whole run: a run from a state that keeps the invariants is safe exactly
when no fault is recorded at its end, since the record is kept until reset (the registers that hold it are the spec's
own, D6; that a run has at most one fault is the spec's own inference). -/
def Obligations.FinalFaultRecordTellsTheWholeRun : Prop :=
  ∀ (s : State) (k : Nat), s.Inv → (SafeRun k s ↔ ∃ t, run k s = .next t ∧ t.NoFault)

/-! ## The instructions, each by its rule: encoding and entry, index checks, result -/

/-- MOV copies `x[src]` to `x[dst]`. Entry and faults are the spec's own: a missing operand byte leaves `pc` at 256
with the expiry phase kept (D3, D7, R71 "[derived]"), the index checks and their order (D4, D8); log 15. -/
def Obligations.MovCopiesRegister : Prop :=
  RunsAs3 0xA0 .mov ∧ ChecksTwoIndices .mov ∧
  ∀ (d r : Fin 8) (s : State), exec (.mov (regByte d) (regByte r)) s = .next { s with x := s.x.set d s.x[r] }

/-- PUT loads the literal, which is never checked. Entry and faults are the spec's own: a missing operand byte leaves
`pc` at 256 with the expiry phase kept (D3, D7, R71 "[derived]"), the index check (D4); log 15. -/
def Obligations.PutLoadsLiteral : Prop :=
  RunsAs3 0xA1 .put ∧ (∀ v : Byte, ChecksOneIndex fun b => .put b v) ∧
  ∀ (d : Fin 8) (v : Byte) (s : State), exec (.put (regByte d) v) s = .next { s with x := s.x.set d v }

/-- ADD writes the sum modulo 256. Entry and faults are the spec's own: a missing operand byte leaves `pc` at 256 with
the expiry phase kept (D3, D7, R71 "[derived]"), the index checks and their order (D4, D8); log 15. -/
def Obligations.AddWrapsModulo256 : Prop :=
  RunsAs3 0xB0 .add ∧ ChecksTwoIndices .add ∧
  ∀ (d r : Fin 8) (s : State),
    exec (.add (regByte d) (regByte r)) s = .next { s with x := s.x.set d (s.x[d] + s.x[r]) }

/-- SUB writes the difference modulo 256, the destination the minuend. Entry and faults are the spec's own: a missing
operand byte leaves `pc` at 256 with the expiry phase kept (D3, D7, R71 "[derived]"), the index checks and their order
(D4, D8); log 15. -/
def Obligations.SubWrapsModulo256 : Prop :=
  RunsAs3 0xB1 .sub ∧ ChecksTwoIndices .sub ∧
  ∀ (d r : Fin 8) (s : State),
    exec (.sub (regByte d) (regByte r)) s = .next { s with x := s.x.set d (s.x[d] - s.x[r]) }

/-- MUL writes the low 8 bits of the exact product. Entry and faults are the spec's own: a missing operand byte leaves
`pc` at 256 with the expiry phase kept (D3, D7, R71 "[derived]"), the index checks and their order (D4, D8); log 15.
-/
def Obligations.MulKeepsLowByte : Prop :=
  RunsAs3 0xB2 .mul ∧ ChecksTwoIndices .mul ∧
  ∀ (d r : Fin 8) (s : State),
    exec (.mul (regByte d) (regByte r)) s =
      .next { s with x := s.x.set d ((s.x[d].setWidth 16 * s.x[r].setWidth 16).setWidth 8) }

/-- DIV writes the unsigned quotient (the spec's own choice D15, log 10) and raises `DivideByZero`, all else kept, on
a divisor register that holds 0. Entry and faults are the spec's own: a missing operand byte leaves `pc` at 256 with
the expiry phase kept (D3, D7, R71 "[derived]"), the index checks and their order (D4, D8); log 15. -/
def Obligations.DivFloorsOrFaults : Prop :=
  RunsAs3 0xB3 .div ∧ ChecksTwoIndices .div ∧
  ∀ (d r : Fin 8) (s : State),
    (s.x[r] = 0 → exec (.div (regByte d) (regByte r)) s = .next (s.raise .divideByZero)) ∧
    (s.x[r] ≠ 0 → ∃ q : Byte, exec (.div (regByte d) (regByte r)) s = .next { s with x := s.x.set d q } ∧
      ∃ m : Nat, m < s.x[r].toNat ∧ s.x[d].toNat = q.toNat * s.x[r].toNat + m)

/-- OR, bit by bit. That `x[dst]` is also the first input is the spec's own reading (R110 "[derived]"). Entry and
faults are the spec's own: a missing operand byte leaves `pc` at 256 with the expiry phase kept (D3, D7, R71
"[derived]"), the index checks and their order (D4, D8); log 15. -/
def Obligations.OrIsBitwise : Prop :=
  RunsAs3 0xC0 .or ∧ ChecksTwoIndices .or ∧
  ∀ (d r : Fin 8) (s : State), ∃ v : Byte,
    exec (.or (regByte d) (regByte r)) s = .next { s with x := s.x.set d v } ∧
    ∀ k : Nat, v.getLsbD k = (s.x[d].getLsbD k || s.x[r].getLsbD k)

/-- AND, bit by bit. That `x[dst]` is also the first input is the spec's own reading (R110 "[derived]"). Entry and
faults are the spec's own: a missing operand byte leaves `pc` at 256 with the expiry phase kept (D3, D7, R71
"[derived]"), the index checks and their order (D4, D8); log 15. -/
def Obligations.AndIsBitwise : Prop :=
  RunsAs3 0xC1 .and ∧ ChecksTwoIndices .and ∧
  ∀ (d r : Fin 8) (s : State), ∃ v : Byte,
    exec (.and (regByte d) (regByte r)) s = .next { s with x := s.x.set d v } ∧
    ∀ k : Nat, v.getLsbD k = (s.x[d].getLsbD k && s.x[r].getLsbD k)

/-- XOR, bit by bit. That `x[dst]` is also the first input is the spec's own reading (R110 "[derived]"). Entry and
faults are the spec's own: a missing operand byte leaves `pc` at 256 with the expiry phase kept (D3, D7, R71
"[derived]"), the index checks and their order (D4, D8); log 15. -/
def Obligations.XorIsBitwise : Prop :=
  RunsAs3 0xC2 .xor ∧ ChecksTwoIndices .xor ∧
  ∀ (d r : Fin 8) (s : State), ∃ v : Byte,
    exec (.xor (regByte d) (regByte r)) s = .next { s with x := s.x.set d v } ∧
    ∀ k : Nat, v.getLsbD k = (s.x[d].getLsbD k ^^ s.x[r].getLsbD k)

/-- OUT appends the register's byte to the output stream, a list that never refuses a byte (the spec's own choice D17;
log 5). Entry and faults are the spec's own: a missing operand byte leaves `pc` at 256 with the expiry phase kept (D3,
D7, R71 "[derived]"), the index check (D4); log 15. -/
def Obligations.OutEmitsOneByte : Prop :=
  RunsAs2 0xD0 .out ∧ ChecksOneIndex .out ∧
  ∀ (r : Fin 8) (s : State), exec (.out (regByte r)) s = .next { s with output := s.output ++ [s.x[r]] }

/-- IN takes the next input byte; at the end of input the register takes IN_EOF_VALUE, whatever byte it is, and the
stream stays (the spec's own choices D13 and D14, and D17 for the stream; logs 3 and 5). Entry and faults are the
spec's own: a missing operand byte leaves `pc` at 256 with the expiry phase kept (D3, D7, R71 "[derived]"), the index
check (D4); log 15. -/
def Obligations.InTakesOneByteOrTheEofValue : Prop :=
  RunsAs2 0xD1 .in_ ∧ ChecksOneIndex .in_ ∧
  ∀ (d : Fin 8) (s : State),
    (∀ (v : Byte) (rest : List Byte), s.input = v :: rest →
      exec (.in_ (regByte d)) s = .next { s with x := s.x.set d v, input := rest }) ∧
    (s.input = [] → exec (.in_ (regByte d)) s = .next { s with x := s.x.set d Config.inEofValue })

/-- JMP writes its address to `pc` and nothing else. Of its entry, it is the spec's own that a missing operand byte
leaves `pc` at 256 with the expiry phase kept (D3, D7, R71 "[derived]"); log 15. -/
def Obligations.JmpWritesPc : Prop :=
  RunsAs2 0xE0 .jmp ∧
  ∀ (a : Addr) (s : State), ∃ p : PcWord, p.toNat = a.toNat ∧ exec (.jmp a) s = .next { s with pc := p }

/-- JEQ jumps exactly when the flag that its own expiry phase left is set, changes nothing else, and accepts every
value of its unused byte (the spec's own choice D5; log 14). Of its entry, it is the spec's own that a missing operand
byte leaves `pc` at 256 with the expiry phase kept (D3, D7, R71 "[derived]"); log 15. -/
def Obligations.JeqJumpsWhenEqual : Prop :=
  RunsAs3 0xE1 .jeq ∧
  ∀ (u : Byte) (a : Addr) (s : State),
    (s.equalFlag = true → ∃ p : PcWord, p.toNat = a.toNat ∧ exec (.jeq u a) s = .next { s with pc := p }) ∧
    (s.equalFlag = false → exec (.jeq u a) s = .next s)

/-- CMP writes the flag with the equality of the two bytes, 0 when they differ (the spec's resolution C2), and the
countdown with 2 (its resolution C1, D10; log 9), both always, and no other instruction can set the flag. Entry and
faults are the spec's own: a missing operand byte leaves `pc` at 256 with the expiry phase kept (D3, D7, R71
"[derived]"), the index checks and their order (D4, D8); log 15. -/
def Obligations.CmpWritesFlagAndCountdown : Prop :=
  RunsAs3 0xE2 .cmp ∧ ChecksTwoIndices .cmp ∧
  (∀ (a b : Fin 8) (s : State),
    exec (.cmp (regByte a) (regByte b)) s = .next { s with equalFlag := s.x[a] == s.x[b], flagClearDelay := 2 }) ∧
  ∀ (i : Instr) (s t : State), s.equalFlag = false → exec i s = .next t → t.equalFlag = true →
    ∃ a b : Fin 8, i = .cmp (regByte a) (regByte b)

/-- R140: NOP's execute phase does nothing; its step still runs the expiry phase and moves `pc` by one. -/
def Obligations.NopHasNoEffectOfItsOwn : Prop :=
  RunsAs1 0xFE .nop ∧ ∀ s : State, exec .nop s = .next s

/-- R141: HLT halts, the fault record as it was; after it no step changes anything. -/
def Obligations.HltHalts : Prop :=
  RunsAs1 0xFF .hlt ∧ (∀ s : State, exec .hlt s = .next { s with halted := true }) ∧
  (∀ s t u : State, exec .hlt s = .next t → step t = .next u → u = t)

/-! ## Frames -/

/-- What MOV, PUT, ADD, SUB, MUL, DIV, OR, AND and XOR leave unchanged: every register but the one the first operand
names, `pc`, flag, countdown, every memory byte, both streams; and `halted` and the fault record unless the instruction
faults, and then every register too (what a fault keeps is the spec's own choice D7; log 15). -/
def Obligations.RegisterWritersFrame : Prop :=
  ∀ mk ∈ [Instr.mov, Instr.put, Instr.add, Instr.sub, Instr.mul, Instr.div, Instr.or, Instr.and, Instr.xor],
    ∀ (b1 b2 : Byte) (s t : State), exec (mk b1 b2) s = .next t →
      (∀ j : Fin 8, j.val ≠ b1.toNat → t.x[j] = s.x[j]) ∧ t.pc = s.pc ∧ t.equalFlag = s.equalFlag ∧
      t.flagClearDelay = s.flagClearDelay ∧ (∀ a, t.mem.read a = s.mem.read a) ∧ t.input = s.input ∧
      t.output = s.output ∧
      ((t.halted = s.halted ∧ t.faultCode = s.faultCode ∧ t.faultInfo = s.faultInfo) ∨
        (t.x = s.x ∧ t.halted = true ∧ t.faultCode ≠ 0))

/-- What IN leaves unchanged: as the register writers, but for the input stream, which loses at most its first byte,
and none when the instruction faults (the spec's own choices D7 and D14; log 15). -/
def Obligations.InFrame : Prop :=
  ∀ (b1 : Byte) (s t : State), exec (.in_ b1) s = .next t →
    (∀ j : Fin 8, j.val ≠ b1.toNat → t.x[j] = s.x[j]) ∧ t.pc = s.pc ∧ t.equalFlag = s.equalFlag ∧
    t.flagClearDelay = s.flagClearDelay ∧ (∀ a, t.mem.read a = s.mem.read a) ∧ t.output = s.output ∧
    ((t.input = s.input.tail ∧ t.halted = s.halted ∧ t.faultCode = s.faultCode ∧ t.faultInfo = s.faultInfo) ∨
      (t.input = s.input ∧ t.x = s.x ∧ t.halted = true ∧ t.faultCode ≠ 0))

/-- What OUT leaves unchanged: every register, `pc`, flag, countdown, every memory byte, the input stream, and what the
output stream already held (what a fault keeps is the spec's own choice D7; log 15). -/
def Obligations.OutFrame : Prop :=
  ∀ (b1 : Byte) (s t : State), exec (.out b1) s = .next t →
    t.x = s.x ∧ t.pc = s.pc ∧ t.equalFlag = s.equalFlag ∧ t.flagClearDelay = s.flagClearDelay ∧
    (∀ a, t.mem.read a = s.mem.read a) ∧ t.input = s.input ∧
    ((t.output.dropLast = s.output ∧ t.output.length = s.output.length + 1 ∧ t.halted = s.halted ∧
        t.faultCode = s.faultCode ∧ t.faultInfo = s.faultInfo) ∨
      (t.output = s.output ∧ t.halted = true ∧ t.faultCode ≠ 0))

/-- What CMP leaves unchanged: every register, `pc`, every memory byte, both streams; and, when it faults, flag and
countdown too (the spec's own choice D7; log 15). -/
def Obligations.CmpFrame : Prop :=
  ∀ (b1 b2 : Byte) (s t : State), exec (.cmp b1 b2) s = .next t →
    t.x = s.x ∧ t.pc = s.pc ∧ (∀ a, t.mem.read a = s.mem.read a) ∧ t.input = s.input ∧ t.output = s.output ∧
    ((t.halted = s.halted ∧ t.faultCode = s.faultCode ∧ t.faultInfo = s.faultInfo) ∨
      (t.equalFlag = s.equalFlag ∧ t.flagClearDelay = s.flagClearDelay ∧ t.halted = true ∧ t.faultCode ≠ 0))

/-- What JMP, JEQ, NOP and HLT leave unchanged (that JEQ never checks its unused byte is D5): everything but `pc` for
the jumps and `halted` for HLT; they never fault in their execute phase. -/
def Obligations.JumpNopHltFrame : Prop :=
  ∀ (u : Byte) (a : Addr), ∀ i ∈ [Instr.jmp a, Instr.jeq u a, Instr.nop, Instr.hlt], ∀ s t : State,
    exec i s = .next t →
      t.x = s.x ∧ t.equalFlag = s.equalFlag ∧ t.flagClearDelay = s.flagClearDelay ∧
      (∀ m, t.mem.read m = s.mem.read m) ∧ t.input = s.input ∧ t.output = s.output ∧
      t.faultCode = s.faultCode ∧ t.faultInfo = s.faultInfo ∧
      (t.pc = s.pc ∨ i = .jmp a ∨ i = .jeq u a) ∧ (t.halted = s.halted ∨ i = .hlt)

/-! ## Whole-machine rules -/

/-- No instruction but CMP writes the flag or the countdown in its execute phase. -/
def Obligations.OnlyCmpWritesTheFlag : Prop :=
  ∀ (i : Instr) (s t : State), (∀ b1 b2 : Byte, i ≠ .cmp b1 b2) → exec i s = .next t →
    t.equalFlag = s.equalFlag ∧ t.flagClearDelay = s.flagClearDelay

/-- R14: how a step that completes without a fault leaves `pc`, for every instruction, `A` being the `pc` it began
with. -/
def Obligations.PcAfterEachInstruction : Prop :=
  ∀ (s t : State) (i : Instr) (rest : List Byte), s.halted = false → s.faultCode = 0 →
    decode s.code = .ok (i, rest) → step s = .next t → t.faultCode = 0 →
      t.pc.toNat =
        match i with
        | .jmp a => a.toNat
        | .jeq _ a => if s.expire.equalFlag then a.toNat else s.pc.toNat + 3
        | .nop | .hlt => s.pc.toNat + 1
        | .out _ | .in_ _ => s.pc.toNat + 2
        | .mov _ _ | .put _ _ | .add _ _ | .sub _ _ | .mul _ _ | .div _ _ | .or _ _ | .and _ _ | .xor _ _
        | .cmp _ _ => s.pc.toNat + 3

/-- A running core halts in a step exactly when the step runs HLT or raises a fault, and the two are told apart by the
fault record (the spec's own registers, D6). -/
def Obligations.HaltsOnlyByHltOrFault : Prop :=
  ∀ s t : State, s.halted = false → s.faultCode = 0 → step s = .next t →
    (t.halted = true ↔ (∃ rest, s.code = 0xFF :: rest) ∨ t.faultCode ≠ 0) ∧
    ((∃ rest, s.code = 0xFF :: rest) → t.faultCode = 0 ∧ t.faultInfo = s.faultInfo)

/-- The output stream only grows, by at most one byte a step, and the core never reads it back: with any other earlier
output the step is the same (the stream model is the spec's own, D17; log 5). -/
def Obligations.OutputOnlyGrowsAndIsNotReadBack : Prop :=
  ∀ s : State, ∃ (t : State) (e : List Byte), e.length ≤ 1 ∧ t.output = s.output ++ e ∧
    ∀ w : List Byte, step { s with output := w } = .next { t with output := w ++ e }

/-- Input is taken in order, at most one byte a step, only by IN, and a step does not depend on the bytes after the
next one (the stream model is the spec's own, D17; log 5). -/
def Obligations.InputTakenInOrderOnlyByIn : Prop :=
  (∀ s t : State, step s = .next t →
    t.input = s.input ∨ ((∃ v, s.input = v :: t.input) ∧ ∃ rest, s.code = 0xD1 :: rest)) ∧
  (∀ (s t : State) (v : Byte) (w w' : List Byte), step { s with input := v :: w } = .next t →
    ∃ l, ((t.input = w ∧ l = w') ∨ (t.input = v :: w ∧ l = v :: w')) ∧
      step { s with input := v :: w' } = .next { t with input := l })

/-- A program cannot read the fault record: a running core with any other record takes the same step, to a state that
differs at most in the record (the record is the spec's own, D6). -/
def Obligations.FaultRecordIsInvisibleToPrograms : Prop :=
  ∀ (s : State) (c : BitVec 3) (f : Byte), ∃ t u : State,
    step s = .next t ∧ step { s with faultCode := c, faultInfo := f } = .next u ∧
      u = { t with faultCode := u.faultCode, faultInfo := u.faultInfo } ∧
      ((u.faultCode = c ∧ u.faultInfo = f) ∨ (u.faultCode = t.faultCode ∧ u.faultInfo = t.faultInfo))

/-- The flag window of the spec's resolution C1 (D10, log 9); that a JEQ may have any unused byte is D5 (log 14).
After a CMP of two registers: a JEQ in the very next step jumps exactly when they were equal; in the step after that,
unless a CMP came between, a JEQ falls through; and as long as no CMP executes, a clear flag stays clear. -/
def Obligations.CompareResultLastsOneInstruction : Prop :=
  (∀ (s : State) (a b : Fin 8) (rest : List Byte), s.halted = false →
    s.code = 0xE2 :: regByte a :: regByte b :: rest →
    ∃ s1, step s = .next s1 ∧ s1.halted = false ∧ s1.equalFlag = (s.x[a] == s.x[b]) ∧ s1.flagClearDelay = 2 ∧
      s1.x = s.x ∧ s1.pc.toNat = s.pc.toNat + 3 ∧
      (∀ (u t : Byte) (rest1 : List Byte), s1.code = 0xE1 :: u :: t :: rest1 →
        ∃ s2, step s1 = .next s2 ∧ s2.pc.toNat = (if s.x[a] = s.x[b] then t.toNat else s1.pc.toNat + 3) ∧
          s2.flagClearDelay = 1 ∧ s2.equalFlag = s1.equalFlag) ∧
      (∀ s2 : State, step s1 = .next s2 → s1.code.head? ≠ some 0xE2 → s2.halted = false →
        s2.expire.equalFlag = false ∧
        ∀ (u t : Byte) (rest2 : List Byte), s2.code = 0xE1 :: u :: t :: rest2 →
          step s2 = .next { s2 with equalFlag := false, flagClearDelay := 0, pc := s2.pc + 3 })) ∧
  (∀ s t : State, s.equalFlag = false → s.code.head? ≠ some 0xE2 → step s = .next t → t.equalFlag = false)

/-! ## Reset, launch and the host -/

/-- The state right after reset: the spec's values (`equal_flag` is D9, the fault record D6), `mem` all MEM_FILL (log 4)
and the streams empty (log 5). -/
def Obligations.ResetValues : Prop :=
  (∀ i : Fin 8, State.reset.x[i] = 0x00) ∧ State.reset.pc = 0 ∧ State.reset.halted = false ∧
  State.reset.equalFlag = false ∧ State.reset.flagClearDelay = 0 ∧ State.reset.faultCode = 0 ∧
  State.reset.faultInfo = 0x00 ∧ (∀ a, State.reset.mem.read a = 0x00) ∧ State.reset.input = [] ∧
  State.reset.output = []

/-- Reset is allowed in every state, running or halted; it puts the core into the reset values and writes neither `mem`
nor the streams (the spec's own choice D18). -/
def Obligations.HostResetKeepsMemoryAndStreams : Prop :=
  ∀ y : System, ∃ z : System, y.act .reset = .next z ∧ z.launched = false ∧
    z.core = { State.reset with mem := y.core.mem, input := y.core.input, output := y.core.output }

/-- The memory after the host has loaded an image of at most 256 bytes: the image from address 0, 0x00 after it (the
fill is the spec's own choice D11; log 4), in canonical form, nothing else touched; a longer image is refused (D12). -/
def Obligations.LoadedImageReadsBack : Prop :=
  ∀ (y : System) (image : List Byte), y.launched = false →
    (image.length ≤ 256 → ∃ m : Memory, y.act (.load image) = .next { y with core := { y.core with mem := m } } ∧
      m.wf = true ∧ ∀ a : Addr, m.read a = (image[a.toNat]?).getD 0x00) ∧
    (256 < image.length → y.act (.load image) = .refused (.imageTooLong image.length))

/-- The launch sequence: reset, load, seed the registers, launch, from any state whatever, leaves the launch state: the
image, the seeds, the input, and every other piece of state at its reset value (reset as an action is D18, seeding of
registers alone D19, the `launched` bit the model's, log 12). -/
def Obligations.LaunchSequenceGivesLaunchState : Prop :=
  ∀ (y : System) (image : List Byte) (seeds : Vector Byte 8) (input : List Byte), image.length ≤ 256 →
    y.acts ([.reset, .load image] ++ (List.ofFn fun i : Fin 8 => HostAction.seed i seeds[i]) ++ [.launch input]) =
      .next { core := { State.reset with mem := imageMemory image, x := seeds, input := input }, launched := true }

/-- The host may load, seed and launch only before a launch, and inspect only before it or after a halt (the spec's own
choices D19, D21 and D23; the `launched` bit is the model's, log 12); inspection gives the state as it is; the core steps
once launched and not before. -/
def Obligations.HostActsOnlyWhenAllowed : Prop :=
  ∀ y : System,
    (y.launched = false → y.tick = .next y) ∧
    (y.launched = true → ∀ t, step y.core = .next t → y.tick = .next { core := t, launched := true }) ∧
    (y.launched = true → ∀ (image input : List Byte) (i : Fin 8) (v : Byte),
      y.act (.load image) = .refused .hostActionNotAllowed ∧ y.act (.seed i v) = .refused .hostActionNotAllowed ∧
      y.act (.launch input) = .refused .hostActionNotAllowed) ∧
    (y.launched = true → y.core.halted = false → y.inspect = .refused .hostActionNotAllowed) ∧
    (y.launched = false ∨ y.core.halted = true → ∃ v : Snapshot, y.inspect = .next v ∧
      v.x = y.core.x ∧ v.pc = y.core.pc ∧ v.equalFlag = y.core.equalFlag ∧
      v.flagClearDelay = y.core.flagClearDelay ∧ v.halted = y.core.halted ∧ v.faultCode = y.core.faultCode ∧
      v.faultInfo = y.core.faultInfo ∧ ∀ a : Addr, v.dump[a.toNat]? = some (y.core.mem.read a))
end

