-- ==== Sys2Proof/Laws/Decode.lean ====
section
/-! SUPPORT. The small lemmas of the opcode map, so that no proof searches the table again. -/

namespace Sys2Proof

@[simp] theorem Opcode.ofByte?_byte (o : Opcode) : Opcode.ofByte? o.byte = some o := by cases o <;> rfl

theorem Opcode.byte_of_ofByte? {b : Byte} {o : Opcode} (h : Opcode.ofByte? b = some o) : b = o.byte := by
  have := List.find?_some h
  exact (beq_iff_eq.1 this).symm

theorem Opcode.operandBytes_le_two (o : Opcode) : o.operandBytes ≤ 2 := by cases o <;> decide

@[simp] theorem Opcode.instr_opcode (o : Opcode) (b1 b2 : Byte) : (o.instr b1 b2).opcode = o := by cases o <;> rfl

/-- The operand bytes a decoded instruction was made from stand in its encoding (R51). -/
theorem encode_instr (o : Opcode) (b1 b2 : Byte) :
    encode (o.instr b1 b2) = o.byte :: [b1, b2].take o.operandBytes := by
  cases o <;> rfl

end Sys2Proof
end

