-- ==== Sys2Proof/Laws/Memory.lean ====
section
/-! SUPPORT. The laws of memory: what a read gives after a write, that every operation keeps the canonical form, and
that canonical memories with equal reads are equal. -/

namespace Sys2Proof.Machine

theorem Memory.wfFrom_cons {lo k : Nat} {v : Byte} {m : Memory} :
    Memory.wfFrom lo ((k, v) :: m) = true ↔
      lo ≤ k ∧ k < 256 ∧ v ≠ Config.memFill ∧ Memory.wfFrom (k + 1) m = true := by
  simp [Memory.wfFrom, and_assoc]

theorem Memory.wfFrom_mono {lo lo' : Nat} {m : Memory} (h : lo' ≤ lo) (hm : Memory.wfFrom lo m = true) :
    Memory.wfFrom lo' m = true := by
  cases m with
  | nil => rfl
  | cons c m =>
    obtain ⟨k, v⟩ := c
    rw [Memory.wfFrom_cons] at hm ⊢
    exact ⟨by omega, hm.2⟩

/-- Below its first possible address a canonical memory lists nothing. -/
theorem Memory.lookup_below {lo a : Nat} {m : Memory} (hm : Memory.wfFrom lo m = true) (h : a < lo) :
    m.lookup a = Config.memFill := by
  induction m generalizing lo with
  | nil => rfl
  | cons c m ih =>
    obtain ⟨k, v⟩ := c
    rw [Memory.wfFrom_cons] at hm
    have hk : k ≠ a := by omega
    simp only [Memory.lookup, hk, if_false]
    exact ih hm.2.2.2 (by omega)

theorem Memory.lookup_insert_same {lo a : Nat} {m : Memory} (v : Byte) (hm : Memory.wfFrom lo m = true) :
    (m.insert a v).lookup a = v := by
  induction m generalizing lo with
  | nil =>
    simp only [Memory.insert]
    split <;> simp_all [Memory.lookup]
  | cons c m ih =>
    obtain ⟨k, w⟩ := c
    rw [Memory.wfFrom_cons] at hm
    simp only [Memory.insert]
    split
    · rename_i hlt
      split
      · rename_i hv
        have hk : k ≠ a := by omega
        simp only [Memory.lookup, hk, if_false, hv]
        exact Memory.lookup_below hm.2.2.2 (by omega)
      · simp [Memory.lookup]
    · split
      · rename_i heq
        split
        · rename_i hv
          rw [hv]
          exact Memory.lookup_below hm.2.2.2 (by omega)
        · simp [Memory.lookup]
      · rename_i hne
        have hk : k ≠ a := fun e => hne e.symm
        simp only [Memory.lookup, hk, if_false]
        exact ih hm.2.2.2

theorem Memory.lookup_insert_other {a b : Nat} (m : Memory) (v : Byte) (h : a ≠ b) :
    (m.insert a v).lookup b = m.lookup b := by
  induction m with
  | nil =>
    simp only [Memory.insert]
    split <;> simp [Memory.lookup, h]
  | cons c m ih =>
    obtain ⟨k, w⟩ := c
    simp only [Memory.insert]
    split
    · split <;> simp [Memory.lookup, h]
    · split
      · rename_i heq
        subst heq
        split <;> simp [Memory.lookup, h]
      · simp only [Memory.lookup, ih]

theorem Memory.wfFrom_insert {lo a : Nat} {m : Memory} (v : Byte) (hlo : lo ≤ a) (ha : a < 256)
    (hm : Memory.wfFrom lo m = true) : Memory.wfFrom lo (m.insert a v) = true := by
  induction m generalizing lo with
  | nil =>
    simp only [Memory.insert]
    split
    · rfl
    · rename_i hv
      exact Memory.wfFrom_cons.2 ⟨hlo, ha, hv, rfl⟩
  | cons c m ih =>
    obtain ⟨k, w⟩ := c
    have hm' := Memory.wfFrom_cons.1 hm
    simp only [Memory.insert]
    split
    · rename_i hlt
      split
      · exact hm
      · rename_i hv
        exact Memory.wfFrom_cons.2 ⟨hlo, ha, hv, Memory.wfFrom_cons.2 ⟨by omega, hm'.2⟩⟩
    · split
      · rename_i heq
        subst heq
        split
        · exact Memory.wfFrom_mono (by omega) hm'.2.2.2
        · rename_i hv
          exact Memory.wfFrom_cons.2 ⟨hlo, ha, hv, hm'.2.2.2⟩
      · exact Memory.wfFrom_cons.2 ⟨hm'.1, hm'.2.1, hm'.2.2.1, ih (by omega) hm'.2.2.2⟩

/-- A byte just written reads back. -/
theorem Memory.read_write_same {m : Memory} (a : Addr) (v : Byte) (hm : m.wf = true) : (m.write a v).read a = v :=
  Memory.lookup_insert_same v hm

/-- A write leaves every other byte alone. -/
theorem Memory.read_write_other (m : Memory) {a b : Addr} (v : Byte) (h : a ≠ b) :
    (m.write a v).read b = m.read b :=
  Memory.lookup_insert_other m v fun e => h (BitVec.eq_of_toNat_eq e)

/-- A write keeps the canonical form. -/
theorem Memory.wf_write {m : Memory} (a : Addr) (v : Byte) (hm : m.wf = true) : (m.write a v).wf = true :=
  Memory.wfFrom_insert v (Nat.zero_le _) a.isLt hm

theorem Memory.eq_of_lookup {lo : Nat} {m n : Memory} (hm : Memory.wfFrom lo m = true)
    (hn : Memory.wfFrom lo n = true) (h : ∀ a, lo ≤ a → a < 256 → m.lookup a = n.lookup a) : m = n := by
  induction m generalizing lo n with
  | nil =>
    cases n with
    | nil => rfl
    | cons c n =>
      obtain ⟨k, v⟩ := c
      rw [Memory.wfFrom_cons] at hn
      have := h k hn.1 hn.2.1
      simp only [Memory.lookup, if_true] at this
      exact absurd this.symm hn.2.2.1
  | cons c m ih =>
    obtain ⟨k, v⟩ := c
    rw [Memory.wfFrom_cons] at hm
    cases n with
    | nil =>
      have := h k hm.1 hm.2.1
      simp only [Memory.lookup, if_true] at this
      exact absurd this hm.2.2.1
    | cons d n =>
      obtain ⟨j, w⟩ := d
      rw [Memory.wfFrom_cons] at hn
      rcases Nat.lt_trichotomy k j with hkj | hkj | hkj
      · have := h k hm.1 hm.2.1
        have hj : j ≠ k := by omega
        simp only [Memory.lookup, if_true, hj, if_false] at this
        rw [Memory.lookup_below hn.2.2.2 (by omega)] at this
        exact absurd this hm.2.2.1
      · subst hkj
        have hv := h k hm.1 hm.2.1
        simp only [Memory.lookup, if_true] at hv
        subst hv
        rw [ih hm.2.2.2 hn.2.2.2 fun a h1 h2 => ?_]
        have := h a (by omega) h2
        have hk : k ≠ a := by omega
        simpa only [Memory.lookup, hk, if_false] using this
      · have := h j hn.1 hn.2.1
        have hk : k ≠ j := by omega
        simp only [Memory.lookup, if_true, hk, if_false] at this
        rw [Memory.lookup_below hm.2.2.2 (by omega)] at this
        exact absurd this.symm hn.2.2.1

/-- Canonical memories that read alike at every address are equal. -/
theorem Memory.eq_of_read {m n : Memory} (hm : m.wf = true) (hn : n.wf = true)
    (h : ∀ a : Addr, m.read a = n.read a) : m = n :=
  Memory.eq_of_lookup hm hn fun a _ ha => by
    have := h (BitVec.ofNat 8 a)
    simpa only [Memory.read, BitVec.toNat_ofNat, Nat.mod_eq_of_lt (show a < 2 ^ 8 by omega)] using this

theorem Memory.wfFrom_ofBytesFrom (bs : List Byte) (a : Nat) (h : a + bs.length ≤ 256) :
    Memory.wfFrom a (Memory.ofBytesFrom a bs) = true := by
  induction bs generalizing a with
  | nil => rfl
  | cons v vs ih =>
    simp only [List.length_cons] at h
    have := ih (a + 1) (by omega)
    simp only [Memory.ofBytesFrom]
    split
    · exact Memory.wfFrom_mono (by omega) this
    · rename_i hv
      exact Memory.wfFrom_cons.2 ⟨le_refl a, by omega, hv, this⟩

/-- Storing bytes keeps the canonical form. -/
theorem storeBytes_wf (bs : List Byte) (m : Memory) (a : Nat) (hm : m.wf = true) :
    (storeBytes m a bs).wf = true := by
  induction bs generalizing m a with
  | nil => exact hm
  | cons v vs ih =>
    simp only [storeBytes]
    split
    · exact ih _ _ (Memory.wf_write _ v hm)
    · exact hm

/-- An image of at most 256 bytes loads as a canonical memory. -/
theorem imageMemory_wf {image : List Byte} (h : image.length ≤ 256) : (imageMemory image).wf = true :=
  Memory.wfFrom_ofBytesFrom image 0 (by omega)

theorem reset_mem_wf : State.reset.mem.wf = true := rfl

end Sys2Proof.Machine
end

