-- ==== Sys2Proof/Laws/State.lean ====
section
/-! SUPPORT. What every update of the state leaves in every field: one lemma per field per update, so that no proof
unfolds a record update. -/

namespace Sys2Proof.Machine

variable (s : State)

@[simp] theorem State.setReg_x (i : Fin 8) (v : Byte) : (s.setReg i v).x = s.x.set i v := rfl
@[simp] theorem State.setReg_pc (i : Fin 8) (v : Byte) : (s.setReg i v).pc = s.pc := rfl
@[simp] theorem State.setReg_equalFlag (i : Fin 8) (v : Byte) : (s.setReg i v).equalFlag = s.equalFlag := rfl
@[simp] theorem State.setReg_flagClearDelay (i : Fin 8) (v : Byte) : (s.setReg i v).flagClearDelay = s.flagClearDelay := rfl
@[simp] theorem State.setReg_halted (i : Fin 8) (v : Byte) : (s.setReg i v).halted = s.halted := rfl
@[simp] theorem State.setReg_faultCode (i : Fin 8) (v : Byte) : (s.setReg i v).faultCode = s.faultCode := rfl
@[simp] theorem State.setReg_faultInfo (i : Fin 8) (v : Byte) : (s.setReg i v).faultInfo = s.faultInfo := rfl
@[simp] theorem State.setReg_mem (i : Fin 8) (v : Byte) : (s.setReg i v).mem = s.mem := rfl
@[simp] theorem State.setReg_input (i : Fin 8) (v : Byte) : (s.setReg i v).input = s.input := rfl
@[simp] theorem State.setReg_output (i : Fin 8) (v : Byte) : (s.setReg i v).output = s.output := rfl

@[simp] theorem State.setPc_x (p : PcWord) : (s.setPc p).x = s.x := rfl
@[simp] theorem State.setPc_pc (p : PcWord) : (s.setPc p).pc = p := rfl
@[simp] theorem State.setPc_equalFlag (p : PcWord) : (s.setPc p).equalFlag = s.equalFlag := rfl
@[simp] theorem State.setPc_flagClearDelay (p : PcWord) : (s.setPc p).flagClearDelay = s.flagClearDelay := rfl
@[simp] theorem State.setPc_halted (p : PcWord) : (s.setPc p).halted = s.halted := rfl
@[simp] theorem State.setPc_faultCode (p : PcWord) : (s.setPc p).faultCode = s.faultCode := rfl
@[simp] theorem State.setPc_faultInfo (p : PcWord) : (s.setPc p).faultInfo = s.faultInfo := rfl
@[simp] theorem State.setPc_mem (p : PcWord) : (s.setPc p).mem = s.mem := rfl
@[simp] theorem State.setPc_input (p : PcWord) : (s.setPc p).input = s.input := rfl
@[simp] theorem State.setPc_output (p : PcWord) : (s.setPc p).output = s.output := rfl

@[simp] theorem State.emit_x (v : Byte) : (s.emit v).x = s.x := rfl
@[simp] theorem State.emit_pc (v : Byte) : (s.emit v).pc = s.pc := rfl
@[simp] theorem State.emit_equalFlag (v : Byte) : (s.emit v).equalFlag = s.equalFlag := rfl
@[simp] theorem State.emit_flagClearDelay (v : Byte) : (s.emit v).flagClearDelay = s.flagClearDelay := rfl
@[simp] theorem State.emit_halted (v : Byte) : (s.emit v).halted = s.halted := rfl
@[simp] theorem State.emit_faultCode (v : Byte) : (s.emit v).faultCode = s.faultCode := rfl
@[simp] theorem State.emit_faultInfo (v : Byte) : (s.emit v).faultInfo = s.faultInfo := rfl
@[simp] theorem State.emit_mem (v : Byte) : (s.emit v).mem = s.mem := rfl
@[simp] theorem State.emit_input (v : Byte) : (s.emit v).input = s.input := rfl
@[simp] theorem State.emit_output (v : Byte) : (s.emit v).output = s.output ++ [v] := rfl

@[simp] theorem State.dropInput_x : (s.dropInput).x = s.x := rfl
@[simp] theorem State.dropInput_pc : (s.dropInput).pc = s.pc := rfl
@[simp] theorem State.dropInput_equalFlag : (s.dropInput).equalFlag = s.equalFlag := rfl
@[simp] theorem State.dropInput_flagClearDelay : (s.dropInput).flagClearDelay = s.flagClearDelay := rfl
@[simp] theorem State.dropInput_halted : (s.dropInput).halted = s.halted := rfl
@[simp] theorem State.dropInput_faultCode : (s.dropInput).faultCode = s.faultCode := rfl
@[simp] theorem State.dropInput_faultInfo : (s.dropInput).faultInfo = s.faultInfo := rfl
@[simp] theorem State.dropInput_mem : (s.dropInput).mem = s.mem := rfl
@[simp] theorem State.dropInput_input : (s.dropInput).input = s.input.tail := rfl
@[simp] theorem State.dropInput_output : (s.dropInput).output = s.output := rfl

@[simp] theorem State.halt_x : (s.halt).x = s.x := rfl
@[simp] theorem State.halt_pc : (s.halt).pc = s.pc := rfl
@[simp] theorem State.halt_equalFlag : (s.halt).equalFlag = s.equalFlag := rfl
@[simp] theorem State.halt_flagClearDelay : (s.halt).flagClearDelay = s.flagClearDelay := rfl
@[simp] theorem State.halt_halted : (s.halt).halted = true := rfl
@[simp] theorem State.halt_faultCode : (s.halt).faultCode = s.faultCode := rfl
@[simp] theorem State.halt_faultInfo : (s.halt).faultInfo = s.faultInfo := rfl
@[simp] theorem State.halt_mem : (s.halt).mem = s.mem := rfl
@[simp] theorem State.halt_input : (s.halt).input = s.input := rfl
@[simp] theorem State.halt_output : (s.halt).output = s.output := rfl

@[simp] theorem State.raise_x (f : RuntimeFault) : (s.raise f).x = s.x := rfl
@[simp] theorem State.raise_pc (f : RuntimeFault) : (s.raise f).pc = s.pc := rfl
@[simp] theorem State.raise_equalFlag (f : RuntimeFault) : (s.raise f).equalFlag = s.equalFlag := rfl
@[simp] theorem State.raise_flagClearDelay (f : RuntimeFault) : (s.raise f).flagClearDelay = s.flagClearDelay := rfl
@[simp] theorem State.raise_halted (f : RuntimeFault) : (s.raise f).halted = true := rfl
@[simp] theorem State.raise_faultCode (f : RuntimeFault) : (s.raise f).faultCode = f.code := rfl
@[simp] theorem State.raise_faultInfo (f : RuntimeFault) : (s.raise f).faultInfo = f.info := rfl
@[simp] theorem State.raise_mem (f : RuntimeFault) : (s.raise f).mem = s.mem := rfl
@[simp] theorem State.raise_input (f : RuntimeFault) : (s.raise f).input = s.input := rfl
@[simp] theorem State.raise_output (f : RuntimeFault) : (s.raise f).output = s.output := rfl

@[simp] theorem State.armFlag_x (b : Bool) : (s.armFlag b).x = s.x := rfl
@[simp] theorem State.armFlag_pc (b : Bool) : (s.armFlag b).pc = s.pc := rfl
@[simp] theorem State.armFlag_equalFlag (b : Bool) : (s.armFlag b).equalFlag = b := rfl
@[simp] theorem State.armFlag_flagClearDelay (b : Bool) : (s.armFlag b).flagClearDelay = Config.cmpDelay := rfl
@[simp] theorem State.armFlag_halted (b : Bool) : (s.armFlag b).halted = s.halted := rfl
@[simp] theorem State.armFlag_faultCode (b : Bool) : (s.armFlag b).faultCode = s.faultCode := rfl
@[simp] theorem State.armFlag_faultInfo (b : Bool) : (s.armFlag b).faultInfo = s.faultInfo := rfl
@[simp] theorem State.armFlag_mem (b : Bool) : (s.armFlag b).mem = s.mem := rfl
@[simp] theorem State.armFlag_input (b : Bool) : (s.armFlag b).input = s.input := rfl
@[simp] theorem State.armFlag_output (b : Bool) : (s.armFlag b).output = s.output := rfl

@[simp] theorem State.hostReset_x : (s.hostReset).x = Vector.replicate 8 0x00 := rfl
@[simp] theorem State.hostReset_pc : (s.hostReset).pc = 0 := rfl
@[simp] theorem State.hostReset_equalFlag : (s.hostReset).equalFlag = false := rfl
@[simp] theorem State.hostReset_flagClearDelay : (s.hostReset).flagClearDelay = 0 := rfl
@[simp] theorem State.hostReset_halted : (s.hostReset).halted = false := rfl
@[simp] theorem State.hostReset_faultCode : (s.hostReset).faultCode = 0 := rfl
@[simp] theorem State.hostReset_faultInfo : (s.hostReset).faultInfo = 0x00 := rfl
@[simp] theorem State.hostReset_mem : (s.hostReset).mem = s.mem := rfl
@[simp] theorem State.hostReset_input : (s.hostReset).input = s.input := rfl
@[simp] theorem State.hostReset_output : (s.hostReset).output = s.output := rfl

theorem State.reg_eq (i : Fin 8) : s.reg i = s.x[i] := rfl

/-- A written register reads back as the value, every other one as before (R10). -/
theorem State.reg_setReg (i j : Fin 8) (v : Byte) : (s.setReg i v).reg j = if i = j then v else s.reg j := by
  simp only [State.reg, State.setReg, Fin.getElem_fin, Vector.getElem_set, Fin.ext_iff]

/-! The expiry phase touches the flag and the countdown only. -/

@[simp] theorem State.expire_x : s.expire.x = s.x := by unfold State.expire; split <;> [rfl; split <;> rfl]
@[simp] theorem State.expire_pc : s.expire.pc = s.pc := by unfold State.expire; split <;> [rfl; split <;> rfl]
@[simp] theorem State.expire_halted : s.expire.halted = s.halted := by unfold State.expire; split <;> [rfl; split <;> rfl]
@[simp] theorem State.expire_faultCode : s.expire.faultCode = s.faultCode := by unfold State.expire; split <;> [rfl; split <;> rfl]
@[simp] theorem State.expire_faultInfo : s.expire.faultInfo = s.faultInfo := by unfold State.expire; split <;> [rfl; split <;> rfl]
@[simp] theorem State.expire_mem : s.expire.mem = s.mem := by unfold State.expire; split <;> [rfl; split <;> rfl]
@[simp] theorem State.expire_input : s.expire.input = s.input := by unfold State.expire; split <;> [rfl; split <;> rfl]
@[simp] theorem State.expire_output : s.expire.output = s.output := by unfold State.expire; split <;> [rfl; split <;> rfl]

/-- The countdown is one less, and stays at 0 (R71). -/
theorem State.expire_flagClearDelay :
    s.expire.flagClearDelay = if s.flagClearDelay = 0 then 0 else s.flagClearDelay - 1 := by
  unfold State.expire
  split
  · assumption
  · split
    · simp_all
    · rfl

/-- The flag is cleared exactly when the countdown goes from 1 to 0 (R71). -/
theorem State.expire_equalFlag :
    s.expire.equalFlag = if s.flagClearDelay = 1 then false else s.equalFlag := by
  unfold State.expire
  split
  · rename_i h
    simp [h]
  · split
    · rename_i h
      have : s.flagClearDelay = 1 := by bv_omega
      simp [this]
    · rename_i h
      have : s.flagClearDelay ≠ 1 := by rintro e; simp [e] at h
      rw [if_neg this]

end Sys2Proof.Machine
end

