-- ==== Sys2Proof/Laws/Ops.lean ====
section
/-! SUPPORT. One lemma for each shared operation that says once everything it can do: register operands, the two-register
operation, and `Fetch`. -/

namespace Sys2Proof.Machine

@[simp] theorem regByte_toNat (i : Fin 8) : (regByte i).toNat = i.val := by
  simp only [regByte, BitVec.toNat_ofNat]
  omega

theorem regIdx?_of_lt {b : Byte} (h : b.toNat < 8) : regIdx? b = some ⟨b.toNat, h⟩ := dif_pos h

theorem regIdx?_of_ge {b : Byte} (h : 8 ≤ b.toNat) : regIdx? b = none := dif_neg (Nat.not_lt.2 h)

@[simp] theorem regIdx?_regByte (i : Fin 8) : regIdx? (regByte i) = some i := by
  rw [regIdx?_of_lt (by simp only [regByte_toNat]; omega)]
  simp

/-- With a legal index the operation goes on with it. -/
@[simp] theorem withReg_regByte (i : Fin 8) (s : State) (k : Fin 8 → StepOutcome) : withReg (regByte i) s k = k i := by
  simp [withReg]

/-- With an illegal index the operation raises and does nothing else. -/
theorem withReg_of_ge {b : Byte} (h : 8 ≤ b.toNat) (s : State) (k : Fin 8 → StepOutcome) :
    withReg b s k = .next (s.raise (.registerIndexOutOfRange b)) := by
  simp [withReg, regIdx?_of_ge h]

/-- Everything the use of one register operand can do. -/
theorem withReg_cases (b : Byte) (s : State) (k : Fin 8 → StepOutcome) :
    (∃ i : Fin 8, b = regByte i ∧ withReg b s k = k i) ∨
      (8 ≤ b.toNat ∧ withReg b s k = .next (s.raise (.registerIndexOutOfRange b))) := by
  rcases Nat.lt_or_ge b.toNat 8 with h | h
  · have hb : b = regByte ⟨b.toNat, h⟩ := by simp [regByte]
    exact .inl ⟨⟨b.toNat, h⟩, hb, by simp only [withReg, regIdx?_of_lt h]⟩
  · exact .inr ⟨h, withReg_of_ge h s k⟩

/-- Everything the use of two register operands can do, in the order of the checks (R78). -/
theorem withTwoRegs_cases (b1 b2 : Byte) (s : State) (k : Fin 8 → Fin 8 → StepOutcome) :
    (∃ i j : Fin 8, b1 = regByte i ∧ b2 = regByte j ∧ withTwoRegs b1 b2 s k = k i j) ∨
      (8 ≤ b1.toNat ∧ withTwoRegs b1 b2 s k = .next (s.raise (.registerIndexOutOfRange b1))) ∨
      (b1.toNat < 8 ∧ 8 ≤ b2.toNat ∧ withTwoRegs b1 b2 s k = .next (s.raise (.registerIndexOutOfRange b2))) := by
  unfold withTwoRegs
  rcases withReg_cases b1 s (fun i => withReg b2 s fun j => k i j) with ⟨i, h1, e1⟩ | ⟨h1, e1⟩
  · rcases withReg_cases b2 s (fun j => k i j) with ⟨j, h2, e2⟩ | ⟨h2, e2⟩
    · exact .inl ⟨i, j, h1, h2, e1.trans e2⟩
    · exact .inr (.inr ⟨by rw [h1, regByte_toNat]; exact i.isLt, h2, e1.trans e2⟩)
  · exact .inr (.inl ⟨h1, e1⟩)

@[simp] theorem withTwoRegs_regByte (i j : Fin 8) (s : State) (k : Fin 8 → Fin 8 → StepOutcome) :
    withTwoRegs (regByte i) (regByte j) s k = k i j := by
  simp [withTwoRegs]

/-- Everything the two-register operation can do. -/
theorem binaryOp_cases (f : Byte → Byte → Byte) (b1 b2 : Byte) (s : State) :
    (∃ d r : Fin 8, b1 = regByte d ∧ b2 = regByte r ∧
        binaryOp f b1 b2 s = .next (s.setReg d (f (s.reg d) (s.reg r)))) ∨
      (8 ≤ b1.toNat ∧ binaryOp f b1 b2 s = .next (s.raise (.registerIndexOutOfRange b1))) ∨
      (b1.toNat < 8 ∧ 8 ≤ b2.toNat ∧ binaryOp f b1 b2 s = .next (s.raise (.registerIndexOutOfRange b2))) :=
  withTwoRegs_cases b1 b2 s _

@[simp] theorem jumpTarget_toNat (a : Addr) : (jumpTarget a).toNat = a.toNat := by
  simp only [jumpTarget, BitVec.toNat_setWidth]
  omega

/-- The four operations of the arithmetic family as operations on 8-bit vectors (R105). -/
theorem aluAdd_eq (a b : Byte) : aluAdd a b = a + b := by
  apply BitVec.eq_of_toNat_eq
  simp [aluAdd]

theorem aluSub_eq (a b : Byte) : aluSub a b = a - b := by
  apply BitVec.eq_of_toNat_eq
  simp only [aluSub, BitVec.toNat_ofNat, BitVec.toNat_sub]
  omega

theorem aluMul_eq (a b : Byte) : aluMul a b = a * b := by
  apply BitVec.eq_of_toNat_eq
  simp [aluMul]

theorem aluDiv_toNat (a b : Byte) : (aluDiv a b).toNat = a.toNat / b.toNat := by
  have : a.toNat / b.toNat ≤ a.toNat := Nat.div_le_self _ _
  have : a.toNat / b.toNat < 2 ^ 8 := Nat.lt_of_le_of_lt this a.isLt
  simp only [aluDiv, BitVec.toNat_ofNat, Nat.mod_eq_of_lt this]

/-! ## The bytes still to be fetched -/

/-- At `pc` 256 (and beyond) no byte is left. -/
theorem State.code_of_ge {s : State} (h : 256 ≤ s.pc.toNat) : s.code = [] := by
  simp [State.code, Nat.sub_eq_zero_of_le h]

/-- Inside memory the first byte is the one at `pc`, and the rest are those of the state after its fetch. -/
theorem State.code_of_lt {s : State} (h : s.pc.toNat < 256) :
    s.code = s.mem.read (s.pc.setWidth 8) :: (s.setPc (s.pc + 1)).code := by
  have hp : (s.pc + 1).toNat = s.pc.toNat + 1 := by
    rw [BitVec.toNat_add]
    simp
    omega
  have h8 : BitVec.ofNat 8 s.pc.toNat = s.pc.setWidth 8 := by
    apply BitVec.eq_of_toNat_eq
    simp
  obtain ⟨n, hn⟩ : ∃ n, 256 - s.pc.toNat = n + 1 := ⟨255 - s.pc.toNat, by omega⟩
  have hn' : 256 - (s.pc.toNat + 1) = n := by omega
  simp only [State.code, State.setPc_pc, State.setPc_mem, hp, hn, hn', List.range_succ_eq_map, List.map_cons,
    List.map_map, Nat.add_zero, h8]
  congr 1
  apply List.map_congr_left
  intro k _
  simp only [Function.comp_apply, Nat.succ_eq_add_one, Nat.add_assoc, Nat.add_comm 1 k]

theorem State.code_expire (s : State) : s.expire.code = s.code := by simp [State.code]

/-- Everything a fetch can do, by the bytes left to fetch (R72). -/
theorem fetch_cases (s : State) :
    (s.code = [] ∧ 256 ≤ s.pc.toNat ∧ fetch s = .error (s.raise .pcOutOfBounds)) ∨
      (∃ v, s.code = v :: (s.setPc (s.pc + 1)).code ∧ s.pc.toNat < 256 ∧ fetch s = .ok (v, s.setPc (s.pc + 1))) := by
  rcases Nat.lt_or_ge s.pc.toNat 256 with h | h
  · exact .inr ⟨_, State.code_of_lt h, h, by simp [fetch, Nat.not_le.2 h]⟩
  · exact .inl ⟨State.code_of_ge h, h, by simp [fetch, h]⟩

/-- A fetch with a byte left gives it. -/
theorem fetch_of_code {s : State} {v : Byte} {rest : List Byte} (h : s.code = v :: rest) :
    fetch s = .ok (v, s.setPc (s.pc + 1)) ∧ (s.setPc (s.pc + 1)).code = rest ∧ s.pc.toNat < 256 := by
  rcases fetch_cases s with ⟨h', _⟩ | ⟨w, h', hlt, e⟩
  · simp [h'] at h
  · rw [h] at h'
    injection h' with h1 h2
    subst h1
    exact ⟨e, h2.symm, hlt⟩

/-- A fetch with no byte left raises. -/
theorem fetch_of_nil {s : State} (h : s.code = []) : fetch s = .error (s.raise .pcOutOfBounds) := by
  rcases fetch_cases s with ⟨_, _, e⟩ | ⟨w, h', _, _⟩
  · exact e
  · simp [h'] at h

/-- How far the memory reaches from `pc`. -/
theorem State.code_length (s : State) : s.code.length = 256 - s.pc.toNat := by simp [State.code]

end Sys2Proof.Machine
end

