-- ==== Sys2Proof/Laws/PerInstr.lean ====
section
/-! SUPPORT. Laws stated for all instructions, one lemma per constructor of `Instr`. -/

/-- The shape of an encoding (R50, R51): it begins with the instruction's opcode byte, and its length is the one the
opcode fixes. -/
def Sys2Proof.Laws.EncodingShape.Statement (i : Sys2Proof.Instr) : Prop :=
  (Sys2Proof.encode i).head? = some i.opcode.byte ∧ (Sys2Proof.encode i).length = i.length

namespace Sys2Proof.Laws.EncodingShape

theorem mov (b1 b2 : Byte) : Statement (.mov b1 b2) := ⟨rfl, rfl⟩
theorem put (b1 b2 : Byte) : Statement (.put b1 b2) := ⟨rfl, rfl⟩
theorem add (b1 b2 : Byte) : Statement (.add b1 b2) := ⟨rfl, rfl⟩
theorem sub (b1 b2 : Byte) : Statement (.sub b1 b2) := ⟨rfl, rfl⟩
theorem mul (b1 b2 : Byte) : Statement (.mul b1 b2) := ⟨rfl, rfl⟩
theorem div (b1 b2 : Byte) : Statement (.div b1 b2) := ⟨rfl, rfl⟩
theorem or (b1 b2 : Byte) : Statement (.or b1 b2) := ⟨rfl, rfl⟩
theorem and (b1 b2 : Byte) : Statement (.and b1 b2) := ⟨rfl, rfl⟩
theorem xor (b1 b2 : Byte) : Statement (.xor b1 b2) := ⟨rfl, rfl⟩
theorem out (b1 : Byte) : Statement (.out b1) := ⟨rfl, rfl⟩
theorem in_ (b1 : Byte) : Statement (.in_ b1) := ⟨rfl, rfl⟩
theorem jmp (b1 : Addr) : Statement (.jmp b1) := ⟨rfl, rfl⟩
theorem jeq (b1 : Byte) (b2 : Addr) : Statement (.jeq b1 b2) := ⟨rfl, rfl⟩
theorem cmp (b1 b2 : Byte) : Statement (.cmp b1 b2) := ⟨rfl, rfl⟩
theorem nop : Statement .nop := ⟨rfl, rfl⟩
theorem hlt : Statement .hlt := ⟨rfl, rfl⟩

end Sys2Proof.Laws.EncodingShape
end

