-- ==== Sys2Proof/Laws/Step.lean ====
section
/-! SUPPORT. What the phases of a step can leave, said once (R70 to R75), and the laws of a run. -/

namespace Sys2Proof.Machine

/-- Inside memory `pc` moves by one without wrapping (R72). -/
theorem pc_succ_toNat {p : PcWord} (h : p.toNat < 256) : (p + 1).toNat = p.toNat + 1 := by
  rw [BitVec.toNat_add]
  simp
  omega

/-- Everything a fetch can leave: the fault, or a byte and a `pc` of at most 256. -/
theorem fetch_leaves (s : State) :
    (∃ n : PcWord, (s.pc.toNat ≤ 256 → n.toNat ≤ 256) ∧ fetch s = .error ((s.setPc n).raise .pcOutOfBounds)) ∨
      (∃ (v : Byte) (n : PcWord), n.toNat ≤ 256 ∧ fetch s = .ok (v, s.setPc n)) := by
  rcases fetch_cases s with ⟨_, _, e⟩ | ⟨v, _, h, e⟩
  · exact .inl ⟨s.pc, id, e⟩
  · exact .inr ⟨v, _, by rw [pc_succ_toNat h]; omega, e⟩

/-- Everything the operand fetch can leave. -/
theorem fetchOperands_leaves (o : Opcode) (s : State) :
    (∃ n : PcWord, (s.pc.toNat ≤ 256 → n.toNat ≤ 256) ∧
        fetchOperands o s = .error ((s.setPc n).raise .pcOutOfBounds)) ∨
      (∃ (b1 b2 : Byte) (n : PcWord), (s.pc.toNat ≤ 256 → n.toNat ≤ 256) ∧
        fetchOperands o s = .ok (o.instr b1 b2, s.setPc n)) := by
  unfold fetchOperands
  split
  · exact .inr ⟨_, _, s.pc, id, rfl⟩
  · rcases fetch_leaves s with ⟨n, h, e⟩ | ⟨v, n, h, e⟩ <;> rw [e]
    · exact .inl ⟨n, h, rfl⟩
    · exact .inr ⟨_, _, n, fun _ => h, rfl⟩
  · rcases fetch_leaves s with ⟨n, h, e⟩ | ⟨v, n, h, e⟩ <;> rw [e]
    · exact .inl ⟨n, h, rfl⟩
    · simp only
      rcases fetch_leaves (s.setPc n) with ⟨m, h2, e⟩ | ⟨w, m, h2, e⟩ <;> rw [e]
      · exact .inl ⟨m, fun _ => h2 h, rfl⟩
      · exact .inr ⟨_, _, m, fun _ => h2, rfl⟩

/-- Everything the fetch of an instruction can leave: one of two faults, or an instruction whose opcode byte is the one
at `pc`; only `pc` has moved. -/
theorem fetchInstr_leaves (s : State) :
    (∃ n : PcWord, (s.pc.toNat ≤ 256 → n.toNat ≤ 256) ∧ fetchInstr s = .error ((s.setPc n).raise .pcOutOfBounds)) ∨
      (∃ (n : PcWord) (op : Byte), n.toNat ≤ 256 ∧ Opcode.ofByte? op = none ∧
        fetchInstr s = .error ((s.setPc n).raise (.illegalOpcode op))) ∨
      (∃ (i : Instr) (n : PcWord), n.toNat ≤ 256 ∧ s.code.head? = some i.opcode.byte ∧
        fetchInstr s = .ok (i, s.setPc n)) := by
  unfold fetchInstr
  rcases hc : s.code with _ | ⟨v, rest⟩
  · rw [fetch_of_nil hc]
    exact .inl ⟨s.pc, id, rfl⟩
  · obtain ⟨e, _, hlt⟩ := fetch_of_code hc
    have hp := pc_succ_toNat hlt
    rw [e]
    cases ho : Opcode.ofByte? v with
    | none => exact .inr (.inl ⟨s.pc + 1, v, by omega, ho, by simp only [ho]⟩)
    | some o =>
      simp only [ho]
      rcases fetchOperands_leaves o (s.setPc (s.pc + 1)) with ⟨m, h, e⟩ | ⟨b1, b2, m, h, e⟩ <;> rw [e]
      · exact .inl ⟨m, fun _ => h (by simp only [State.setPc_pc]; omega), rfl⟩
      · exact .inr (.inr ⟨_, m, h (by simp only [State.setPc_pc]; omega), by simp [Opcode.byte_of_ofByte? ho], rfl⟩)

/-- A halted core stays as it is (R18). -/
theorem step_of_halted {s : State} (h : s.halted = true) : step s = .next s := by
  simp [step, runCycle, h]

/-- Everything a step of a running core can do: raise one of the two fetch faults, or run the execute phase of the
instruction it fetched; before that only the expiry phase has run and `pc` has moved. -/
theorem step_leaves {s t : State} (hh : s.halted = false) (h : step s = .next t) :
    (∃ n : PcWord, (s.pc.toNat ≤ 256 → n.toNat ≤ 256) ∧ t = (s.expire.setPc n).raise .pcOutOfBounds) ∨
      (∃ (n : PcWord) (op : Byte), n.toNat ≤ 256 ∧ Opcode.ofByte? op = none ∧
        t = (s.expire.setPc n).raise (.illegalOpcode op)) ∨
      (∃ (i : Instr) (n : PcWord), n.toNat ≤ 256 ∧ s.code.head? = some i.opcode.byte ∧
        exec i (s.expire.setPc n) = .next t) := by
  have hs : step s = match fetchInstr s.expire with
      | .error t => .next t
      | .ok (i, t) => exec i t :=
    if_neg (c := s.halted = true) (by simp [hh])
  rw [hs] at h
  have hf := fetchInstr_leaves s.expire
  rw [State.expire_pc, State.code_expire] at hf
  rcases hf with ⟨n, hn, e⟩ | ⟨n, op, hn, ho, e⟩ | ⟨i, n, hn, hc, e⟩ <;> rw [e] at h
  · cases h
    exact .inl ⟨n, hn, rfl⟩
  · cases h
    exact .inr (.inl ⟨n, op, hn, ho, rfl⟩)
  · exact .inr (.inr ⟨i, n, hn, hc, h⟩)

/-! ## Runs -/

theorem run_zero (s : State) : run 0 s = .next s := rfl

/-- A run goes on from the state its first step leaves. -/
theorem run_succ_of_step (k : Nat) {s t : State} (h : step s = .next t) : run (k + 1) s = run k t := by
  simp only [run, Host.Core.run, show Sys2Proof.core.step s = .next t from h]
  rfl

end Sys2Proof.Machine
end

