-- ==== Sys2Proof/Tests/Slice0.lean ====
section
/-! SUPPORT. Our own tests: the well-formedness smoke test, the decoding of words written out bit by bit from R51 and
R55, one-step vectors of spec/95_test_vectors.md (each named in its docstring), and for every statement with hypotheses
a witness that meets them. -/

namespace Sys2Proof.Machine

/-- A running core out of reset with `pc` at `a`, bytes standing there, and register contents. -/
def place (a : Nat) (bs : List Byte) (x : Vector Byte 8 := Vector.replicate 8 0) : State :=
  { State.reset with pc := BitVec.ofNat 9 a, mem := Memory.ofBytesFrom a bs, x := x }

/-- The state after one step. -/
def after (s : State) : Option State := nextState? (step s)

/-- The state in which the CMP before left the flag and countdown given. -/
def State.withFlag (s : State) (f : Bool) (d : BitVec 2) : State := { s with equalFlag := f, flagClearDelay := d }

/-- Registers with two values set. -/
def two (i : Fin 8) (v : Byte) (j : Fin 8) (w : Byte) : Vector Byte 8 := ((Vector.replicate 8 0).set i v).set j w

/-- What the fault vectors look at: `halted`, `faultCode`, `faultInfo`, `pc`. -/
def faultView (s : State) : Option (Bool × BitVec 3 × Byte × PcWord) :=
  (after s).map fun t => (t.halted, t.faultCode, t.faultInfo, t.pc)

/-! ## Well-formedness: each check refuses an ill-formed term -/

theorem test_wf_mov : wellFormed (.mov 7 8) = false ∧ wellFormed (.mov 8 7) = false ∧ wellFormed (.mov 7 7) = true := by
  decide
theorem test_wf_put : wellFormed (.put 8 0) = false ∧ wellFormed (.put 7 255) = true := by decide
theorem test_wf_add : wellFormed (.add 0 255) = false ∧ wellFormed (.add 255 0) = false := by decide
theorem test_wf_sub : wellFormed (.sub 0 8) = false ∧ wellFormed (.sub 8 0) = false := by decide
theorem test_wf_mul : wellFormed (.mul 0 9) = false ∧ wellFormed (.mul 9 0) = false := by decide
theorem test_wf_div : wellFormed (.div 0 8) = false ∧ wellFormed (.div 8 0) = false := by decide
theorem test_wf_or : wellFormed (.or 0 8) = false ∧ wellFormed (.or 8 0) = false := by decide
theorem test_wf_and : wellFormed (.and 0 8) = false ∧ wellFormed (.and 8 0) = false := by decide
theorem test_wf_xor : wellFormed (.xor 4 12) = false ∧ wellFormed (.xor 12 4) = false := by decide
theorem test_wf_out : wellFormed (.out 8) = false ∧ wellFormed (.out 7) = true := by decide
theorem test_wf_in : wellFormed (.in_ 9) = false ∧ wellFormed (.in_ 0) = true := by decide
theorem test_wf_cmp : wellFormed (.cmp 0 8) = false ∧ wellFormed (.cmp 8 0) = false := by decide
theorem test_wf_jeq_unused_byte_is_free : wellFormed (.jeq 200 22) = true := by decide
theorem test_assemblable_jeq : assemblable (.jeq 8 0) = false ∧ assemblable (.jeq 7 0) = true := by decide

/-! ## Decoding: every constructor's word, bit by bit from the binary column of R55 -/

theorem test_decode_mov : decode [0b10100000, 0b00000001, 0b00000010] = .ok (.mov 1 2, []) := by decide
theorem test_decode_put : decode [0b10100001, 0b00000000, 0b01000001] = .ok (.put 0 65, []) := by decide
theorem test_decode_add : decode [0b10110000, 0b00000000, 0b00000001] = .ok (.add 0 1, []) := by decide
theorem test_decode_sub : decode [0b10110001, 0b00000000, 0b00000001] = .ok (.sub 0 1, []) := by decide
theorem test_decode_mul : decode [0b10110010, 0b00000010, 0b00000011] = .ok (.mul 2 3, []) := by decide
theorem test_decode_div : decode [0b10110011, 0b00000010, 0b00000011] = .ok (.div 2 3, []) := by decide
theorem test_decode_or : decode [0b11000000, 0b00000100, 0b00000101] = .ok (.or 4 5, []) := by decide
theorem test_decode_and : decode [0b11000001, 0b00000100, 0b00000101] = .ok (.and 4 5, []) := by decide
theorem test_decode_xor : decode [0b11000010, 0b00000100, 0b00000100] = .ok (.xor 4 4, []) := by decide
theorem test_decode_out : decode [0b11010000, 0b00000000] = .ok (.out 0, []) := by decide
theorem test_decode_in : decode [0b11010001, 0b00000111] = .ok (.in_ 7, []) := by decide
theorem test_decode_jmp : decode [0b11100000, 0b00001001] = .ok (.jmp 9, []) := by decide
theorem test_decode_jeq : decode [0b11100001, 0b00000000, 0b00010110] = .ok (.jeq 0 22, []) := by decide
theorem test_decode_cmp : decode [0b11100010, 0b00000000, 0b00000010] = .ok (.cmp 0 2, []) := by decide
theorem test_decode_nop : decode [0b11111110, 0b11111111] = .ok (.nop, [0xFF]) := by decide
theorem test_decode_hlt : decode [0b11111111] = .ok (.hlt, []) := by decide

/-- Neighbours of instructions are not instructions (R56, R57), and a string cut short is refused. -/
theorem test_decode_rejects :
    decode [0xA2, 0, 0] = .error (.illegalOpcode 0xA2) ∧ decode [0xFD] = .error (.illegalOpcode 0xFD) ∧
    decode [0xE1, 0] = .error .truncated ∧ decode [] = .error .truncated := by decide

/-- The table's numbering: the first byte is the low one; bits above the row's are zero. -/
theorem test_decodeTableWord :
    decodeTableWord 24 0x0201A0 = some (.mov 1 2) ∧ decodeTableWord 16 0x09E0 = some (.jmp 9) ∧
    decodeTableWord 8 0xFFFFFE = some .nop ∧ decodeTableWord 8 0xA0 = some (.mov 0 0) ∧
    decodeTableWord 8 0x00 = none := by decide

/-- A word placed in the state after reset is what the next step fetches. -/
theorem test_withFetchWord :
    fetchInstr (State.reset.withFetchWord 24 0x4100A1).expire =
      .ok (.put 0 65, (State.reset.withFetchWord 24 0x4100A1).setPc 3) := by decide

/-- The example lines of R63. -/
theorem test_assemble :
    assemble [.comment, .code "MOV" [['R', '1'], ['R', '2']], .blank, .code "PUT" [['R', '0'], ['6', '5']],
      .code "JEQ" [['R', '0'], ['2', '2']], .code "HLT" []] =
      some [0xA0, 0x01, 0x02, 0xA1, 0x00, 0x41, 0xE1, 0x00, 0x16, 0xFF] ∧
    assembleTokens "OUT" [['R', '8']] = none ∧ assembleTokens "JMP" [['2', '5', '6']] = none := by decide

/-! ## One-step vectors of spec/95_test_vectors.md -/

/-- V-MOV-7: the expiry phase counts 2 down to 1 and keeps the flag. -/
theorem test_mov_V7 :
    after ((place 16 [0xA0, 1, 2] (two 2 0x2A 7 0)).withFlag true 2) =
      some ({ place 16 [0xA0, 1, 2] (two 1 0x2A 2 0x2A) with pc := 19 }.withFlag true 1) := by decide
/-- V-MOV-6: both indices bad, the first is reported. -/
theorem test_mov_V6 : faultView (place 16 [0xA0, 0x09, 0x0A]) = some (true, 2, 0x09, 19) := by decide
/-- V-PUT-5: the immediate is not an index. -/
theorem test_put_V5 : (after (place 16 [0xA1, 0x02, 0x09])).map (·.x[2]) = some 0x09 := by decide
/-- V-ADD-2. -/
theorem test_add_V2 :
    (after (place 16 [0xB0, 0, 1] (two 0 0xFF 1 0xFF))).map (·.x) = some (two 0 0xFE 1 0xFF) := by decide
/-- V-SUB-2. -/
theorem test_sub_V2 :
    (after (place 16 [0xB1, 0, 1] (two 0 0x05 1 0x0A))).map (·.x) = some (two 0 0xFB 1 0x0A) := by decide
/-- V-MUL-1. -/
theorem test_mul_V1 :
    (after (place 16 [0xB2, 2, 3] (two 2 0x14 3 0x0D))).map (·.x) = some (two 2 0x04 3 0x0D) := by decide
/-- V-DIV-2: unsigned. -/
theorem test_div_V2 :
    (after (place 16 [0xB3, 0, 1] (two 0 0xFF 1 0x02))).map (·.x) = some (two 0 0x7F 1 0x02) := by decide
/-- V-DIV-8: the destination is kept. -/
theorem test_div_V8 :
    (after (place 16 [0xB3, 0, 1] (two 0 0x64 1 0))).map (fun t => (t.x[0], t.faultCode, t.pc)) =
      some (0x64, 4, 19) := by decide
/-- V-OR-1. -/
theorem test_or_V1 : (after (place 16 [0xC0, 4, 5] (two 4 0xF0 5 0x3C))).map (·.x) = some (two 4 0xFC 5 0x3C) := by decide
/-- V-AND-1. -/
theorem test_and_V1 : (after (place 16 [0xC1, 4, 5] (two 4 0xF0 5 0x3C))).map (·.x) = some (two 4 0x30 5 0x3C) := by decide
/-- V-XOR-1. -/
theorem test_xor_V1 : (after (place 16 [0xC2, 4, 5] (two 4 0xF0 5 0x3C))).map (·.x) = some (two 4 0xCC 5 0x3C) := by decide
/-- V-OUT-1. -/
theorem test_out_V1 :
    (after (place 16 [0xD0, 0] (two 0 0x41 1 0))).map (fun t => (t.output, t.pc)) = some ([0x41], 18) := by decide
/-- V-OUT-3: nothing is emitted. -/
theorem test_out_V3 : (after (place 16 [0xD0, 8])).map (fun t => (t.output, t.faultInfo)) = some ([], 8) := by decide
/-- V-IN-1. -/
theorem test_in_V1 :
    (after { place 16 [0xD1, 7] with input := [0x68, 0x69] }).map (fun t => (t.x[7], t.input, t.pc)) =
      some (0x68, [0x69], 18) := by decide
/-- V-IN-3: at end of input the register takes IN_EOF_VALUE and the program goes on. -/
theorem test_in_V3 :
    (after (place 16 [0xD1, 0] (two 0 0x33 1 0))).map (fun t => (t.x[0], t.halted, t.input)) =
      some (Config.inEofValue, false, []) := by rfl
/-- V-JMP-2 and V-JMP-4. -/
theorem test_jmp_V2_V4 :
    (after (place 16 [0xE0, 0xFF])).map (·.pc) = some 255 ∧
    (after ((place 20 [0xE0, 9]).withFlag true 1)).map (fun t => (t.pc, t.equalFlag, t.flagClearDelay)) =
      some (9, false, 0) := by decide
/-- V-JEQ-5: taken, the unused byte 200 ignored. -/
theorem test_jeq_V5 :
    (after ((place 12 [0xE1, 0xC8, 0x16]).withFlag true 2)).map (fun t => (t.pc, t.equalFlag, t.flagClearDelay)) =
      some (22, true, 1) := by decide
/-- V-JEQ-3: the expiry phase of this very step cleared the flag. -/
theorem test_jeq_V3 :
    (after ((place 12 [0xE1, 0, 0x16]).withFlag true 1)).map (fun t => (t.pc, t.equalFlag, t.flagClearDelay)) =
      some (15, false, 0) := by decide
/-- V-CMP-4: unequal right after equal. -/
theorem test_cmp_V4 :
    (after ((place 16 [0xE2, 0, 2] (two 0 3 2 0)).withFlag true 2)).map (fun t => (t.equalFlag, t.flagClearDelay)) =
      some (false, 2) := by decide
/-- V-CMP-7: the expiry phase is kept, the execute phase wrote nothing. -/
theorem test_cmp_V7 :
    (after ((place 16 [0xE2, 8, 0]).withFlag true 2)).map (fun t => (t.equalFlag, t.flagClearDelay, t.faultInfo)) =
      some (true, 1, 8) := by decide
/-- V-NOP-2 and V-FLT-7: `pc` rests at 256, and the next fetch faults there. -/
theorem test_nop_V2 :
    faultView (place 255 [0xFE]) = some (false, 0, 0, 256) ∧ faultView (place 256 []) = some (true, 3, 0, 256) := by
  decide
/-- V-HLT-3. -/
theorem test_hlt_V3 :
    (after ((place 7 [0xFF]).withFlag true 2)).map (fun t => (t.halted, t.faultCode, t.pc, t.equalFlag)) =
      some (true, 0, 8, true) := by decide
/-- V-FLT-4, V-FLT-6, V-FLT-8, V-FLT-9. -/
theorem test_faults :
    faultView (place 4 [0xB4, 0, 1]) = some (true, 1, 0xB4, 5) ∧ faultView (place 255 [0xE3]) = some (true, 1, 0xE3, 256) ∧
    faultView (place 255 [0xE0]) = some (true, 3, 0, 256) ∧ faultView (place 254 [0xA0, 0xC8]) = some (true, 3, 0, 256) := by
  decide
/-- V-FLT-12: a halted core does not change. -/
theorem test_halted_V12 :
    after { place 0 [0xFF] with halted := true, faultCode := 4, pc := 19 } =
      some { place 0 [0xFF] with halted := true, faultCode := 4, pc := 19 } := by decide
/-- V-RST-2 and V-RST-3: reset, load, seed. -/
theorem test_reset_load_seed :
    (match (System.powerOn).acts [.reset, .load [0xA1, 0x00, 0x41, 0xD0, 0x00, 0xFF], .seed 3 0x2A, .launch [1]] with
      | .next y => decide (y.core.mem = [(0, 0xA1), (2, 0x41), (3, 0xD0), (5, 0xFF)] ∧ y.core.x[3] = 0x2A ∧
          y.core.input = [1] ∧ y.launched = true)
      | _ => false) = true := by decide

/-! ## Witnesses: for every statement with hypotheses, a state and operands that meet them, at the edges of each
clause. "Steps to" is said by the state `after` gives. -/

theorem witness_DecodeAndEncodeAgree :
    decode [0xE1, 0xFF, 0xFF, 0x00] = .ok (.jeq 255 255, [0x00]) ∧
      [0xE1, 0xFF, 0xFF, 0x00] = encode (.jeq 255 255) ++ [0x00] := by decide

theorem witness_EncodingIsOneToOne :
    encode (.mov 0 255) ++ [1] = encode (.mov 0 255) ++ [1] ∧ Opcode.hlt.byte = Opcode.hlt.byte ∧
      Opcode.hlt.mnemonic = Opcode.hlt.mnemonic := by decide

theorem witness_IllegalOpcodesHaltAndAreReported :
    ∀ op ∈ ([0x00, 0x9F, 0xA2, 0xAF, 0xB4, 0xBF, 0xC3, 0xCF, 0xD2, 0xDF, 0xE3, 0xFD] : List Byte),
      (place 255 [op]).halted = false ∧ (place 255 [op]).code = [op] ∧ Opcode.ofByte? op = none := by decide

theorem witness_AssemblyLineGivesEncoding :
    assemblable (.put 7 255) = true ∧ assemblable (.jeq 7 0) = true ∧ assemblable .hlt = true := by decide

theorem witness_StepRunsDecodedInstruction :
    (place 253 [0xA0, 7, 0]).halted = false ∧ decode (place 253 [0xA0, 7, 0]).code = .ok (.mov 7 0, []) := by decide

theorem witness_StepIsDecodingOfTheRemainingMemory :
    ((place 255 [0xFE]).halted = false ∧ (place 255 [0xFE]).pc.toNat ≤ 256 ∧
      decode (place 255 [0xFE]).code = .ok (.nop, [])) ∧
    (decode (place 255 [0x00]).code = .error (.illegalOpcode 0x00)) ∧
    ((place 256 []).pc.toNat ≤ 256 ∧ decode (place 256 []).code = .error .truncated) ∧
    (State.reset.halt.halted = true ∧ after State.reset.halt = some State.reset.halt) := by decide

theorem witness_ExpiryPhaseCountsDownAndClears :
    (State.reset.withFlag false 0).flagClearDelay = 0 ∧ (State.reset.withFlag true 1).flagClearDelay = 1 ∧
      (State.reset.withFlag true 2).flagClearDelay = 2 := by decide

theorem witness_FetchReadsOrRaises :
    (place 0 []).pc.toNat = 0 ∧ (place 255 []).pc.toNat = 255 ∧ (place 256 []).pc = 256 := by decide

theorem witness_FaultingStepIsPrecise :
    (place 255 [0xE3]).halted = false ∧ (place 255 [0xE3]).faultCode = 0 ∧
      (after (place 255 [0xE3])).map (fun t => decide (t.faultCode ≠ 0)) = some true := by decide

theorem witness_PcAfterEachFault :
    (∀ s ∈ [place 256 [], place 255 [0x00], place 253 [0xA0, 8, 0], place 254 [0xD0, 8], place 253 [0xB3, 0, 0]],
      s.halted = false ∧ s.faultCode = 0 ∧ s.pc.toNat ≤ 256) ∧
    [place 256 [], place 255 [0x00], place 253 [0xA0, 8, 0], place 254 [0xD0, 8], place 253 [0xB3, 0, 0]].map
      (fun s => (after s).map (·.faultCode)) = [some 3, some 1, some 2, some 2, some 4] := by decide

theorem witness_DivFaultsInOrder :
    (place 255 [0xB3]).code = [0xB3] ∧ (place 254 [0xB3, 8]).code = [0xB3, 8] ∧
    (place 253 [0xB3, 8, 255]).code = [0xB3, 8, 255] ∧ (place 253 [0xB3, 7, 8]).code = [0xB3, regByte 7, 8] ∧
    (place 253 [0xB3, 7, 0]).code = [0xB3, regByte 7, regByte 0] ∧ (place 253 [0xB3, 7, 0]).x[0] = 0 ∧
    (place 253 [0xB3, 7, 0]).halted = false := by decide

theorem witness_WhichInstructionRaisesWhichFault :
    State.reset.faultCode = 0 ∧ (nextState? (exec (.out 8) State.reset)).map (·.faultCode) = some 2 ∧
    (nextState? (exec (.div 7 0) State.reset)).map (·.faultCode) = some 4 ∧
    (nextState? (exec (.out 7) State.reset)).map (·.faultCode) = some 0 := by decide

theorem witness_HaltedIsTerminal : State.reset.halt.halted = true := by decide

theorem witness_StepKeepsInvariant :
    (place 255 [0xFE]).Inv ∧ ((place 253 [0xE2, 0, 0]).withFlag true 2).Inv ∧ (after (place 255 [0xFE])).isSome = true := by
  decide

theorem witness_StepKeepsFaultRecordLegal :
    (place 255 [0xE3]).FaultRecordLegal ∧ (after (place 255 [0xE3])).isSome = true := by decide

theorem witness_MemoryIsNeverWritten :
    (after (place 255 [0xFE])).isSome = true ∧ (nextState? (run 2 (place 255 [0xFE]))).isSome = true := by decide

theorem witness_FinalFaultRecordTellsTheWholeRun :
    (place 255 [0xFF]).Inv ∧ (nextState? (run 1 (place 255 [0xFF]))).map (·.faultCode) = some 0 := by decide

/-- An opcode byte of a 3-byte instruction with its bytes ending at address 255, and cut short there. -/
def fits3 (op : Byte) : Bool :=
  decide ((place 253 [op, 7, 255]).halted = false ∧ (place 253 [op, 7, 255]).code = [op, 7, 255] ∧
    (place 255 [op]).code = [op] ∧ (place 254 [op, 8]).code = [op, 8])

/-- The same for a 2-byte instruction. -/
def fits2 (op : Byte) : Bool :=
  decide ((place 254 [op, 7]).halted = false ∧ (place 254 [op, 7]).code = [op, 7] ∧ (place 255 [op]).code = [op])

/-- Operand bytes at the edges of the index checks. -/
theorem witness_index_checks :
    8 ≤ (8 : Byte).toNat ∧ 8 ≤ (255 : Byte).toNat ∧ (0 : Byte).toNat < 8 ∧ (7 : Byte).toNat < 8 := by decide

theorem witness_MovCopiesRegister : fits3 0xA0 = true := by decide
theorem witness_PutLoadsLiteral : fits3 0xA1 = true := by decide
theorem witness_AddWrapsModulo256 : fits3 0xB0 = true := by decide
theorem witness_SubWrapsModulo256 : fits3 0xB1 = true := by decide
theorem witness_MulKeepsLowByte : fits3 0xB2 = true := by decide
theorem witness_DivFloorsOrFaults :
    fits3 0xB3 = true ∧ State.reset.x[(7 : Fin 8)] = 0 ∧ (place 0 [] (two 0 255 7 1)).x[(7 : Fin 8)] ≠ 0 := by decide
theorem witness_OrIsBitwise : fits3 0xC0 = true := by decide
theorem witness_AndIsBitwise : fits3 0xC1 = true := by decide
theorem witness_XorIsBitwise : fits3 0xC2 = true := by decide
theorem witness_OutEmitsOneByte : fits2 0xD0 = true := by decide
theorem witness_InTakesOneByteOrTheEofValue :
    fits2 0xD1 = true ∧ ({ State.reset with input := [0] } : State).input = 0 :: [] ∧ State.reset.input = [] := by decide
theorem witness_JmpWritesPc : fits2 0xE0 = true := by decide
theorem witness_JeqJumpsWhenEqual :
    fits3 0xE1 = true ∧ (State.reset.withFlag true 1).equalFlag = true ∧ State.reset.equalFlag = false := by decide
theorem witness_CmpWritesFlagAndCountdown :
    fits3 0xE2 = true ∧ State.reset.equalFlag = false ∧
      (nextState? (exec (.cmp 0 7) State.reset)).map (·.equalFlag) = some true := by decide
theorem witness_NopHasNoEffectOfItsOwn :
    (place 255 [0xFE]).halted = false ∧ (place 255 [0xFE]).code = [0xFE] := by decide
theorem witness_HltHalts :
    (place 255 [0xFF]).halted = false ∧ (place 255 [0xFF]).code = [0xFF] ∧
      nextState? (exec .hlt State.reset) = some State.reset.halt ∧ after State.reset.halt = some State.reset.halt := by
  decide

theorem witness_RegisterWritersFrame :
    (nextState? (exec (.div 7 0) (place 0 [] (two 0 1 7 9)))).map (·.halted) = some false ∧
    (nextState? (exec (.div 7 0) State.reset)).map (·.halted) = some true ∧
    (nextState? (exec (.put 8 0) State.reset)).map (·.halted) = some true := by decide

theorem witness_InFrame :
    (nextState? (exec (.in_ 7) State.reset)).map (·.halted) = some false ∧
    (nextState? (exec (.in_ 8) State.reset)).map (·.halted) = some true := ⟨rfl, by decide⟩

theorem witness_OutFrame :
    (nextState? (exec (.out 7) State.reset)).map (·.halted) = some false ∧
    (nextState? (exec (.out 8) State.reset)).map (·.halted) = some true := by decide

theorem witness_CmpFrame :
    (nextState? (exec (.cmp 0 7) State.reset)).map (·.halted) = some false ∧
    (nextState? (exec (.cmp 0 8) State.reset)).map (·.halted) = some true := by decide

theorem witness_JumpNopHltFrame :
    ∀ i ∈ [Instr.jmp 255, Instr.jeq 255 255, Instr.nop, Instr.hlt], (nextState? (exec i State.reset)).isSome = true := by
  decide

theorem witness_OnlyCmpWritesTheFlag :
    (∀ b1 b2 : Byte, Instr.nop ≠ .cmp b1 b2) ∧ nextState? (exec .nop State.reset) = some State.reset :=
  ⟨nofun, by decide⟩

theorem witness_PcAfterEachInstruction :
    (∀ p ∈ [(place 254 [0xE0, 0], Instr.jmp 0), (place 253 [0xE1, 0, 0], Instr.jeq 0 0), (place 255 [0xFE], Instr.nop),
        (place 255 [0xFF], Instr.hlt), (place 254 [0xD0, 7], Instr.out 7), (place 253 [0xE2, 7, 0], Instr.cmp 7 0),
        ((place 253 [0xE1, 0, 0]).withFlag true 2, Instr.jeq 0 0)],
      p.1.halted = false ∧ p.1.faultCode = 0 ∧ decode p.1.code = .ok (p.2, []) ∧
        (after p.1).map (·.faultCode) = some 0) := by decide

theorem witness_HaltsOnlyByHltOrFault :
    (place 255 [0xFF]).halted = false ∧ (place 255 [0xFF]).faultCode = 0 ∧
      (after (place 255 [0xFF])).map (fun t => (t.halted, t.faultCode)) = some (true, 0) ∧
      (after (place 255 [0xE3])).map (fun t => (t.halted, t.faultCode)) = some (true, 1) ∧
      (place 255 [0xFF]).code = [0xFF] := by decide

theorem witness_InputTakenInOrderOnlyByIn :
    (after { place 254 [0xD1, 7] with input := 5 :: [6] }).map (·.input) = some [6] ∧
    (after { place 255 [0xFE] with input := 5 :: [6] }).map (·.input) = some [5, 6] := by decide

theorem witness_CompareResultLastsOneInstruction :
    let s := place 247 [0xE2, regByte 0, regByte 1, 0xE1, 0, 250, 0xE1, 0, 250]
    s.halted = false ∧ s.code = [0xE2, regByte 0, regByte 1, 0xE1, 0, 250, 0xE1, 0, 250] ∧
    (after s).map (·.code) = some [0xE1, 0, 250, 0xE1, 0, 250] ∧
    ((after s).bind after).map (fun t => (t.halted, t.code)) = some (false, [0xE1, 0, 250, 0xE1, 0, 250]) ∧
    State.reset.equalFlag = false ∧ State.reset.code.head? ≠ some 0xE2 ∧ (after State.reset).isSome = true := by decide

theorem witness_LoadedImageReadsBack :
    System.powerOn.launched = false ∧ (List.replicate 256 (0xFE : Byte)).length ≤ 256 ∧
      256 < (List.replicate 257 (0xFE : Byte)).length :=
  ⟨rfl, by rw [List.length_replicate], by rw [List.length_replicate]; decide⟩

theorem witness_LaunchSequenceGivesLaunchState :
    ([] : List Byte).length ≤ 256 ∧ (List.replicate 256 (0xFE : Byte)).length ≤ 256 :=
  ⟨by decide, by rw [List.length_replicate]⟩

theorem witness_HostActsOnlyWhenAllowed :
    System.powerOn.launched = false ∧ (∃ y : System, y.launched = true ∧ y.core.halted = false ∧ (after y.core).isSome = true) ∧
      ∃ y : System, y.launched = true ∧ y.core.halted = true :=
  ⟨rfl, ⟨⟨State.reset, true⟩, rfl, rfl, by decide⟩, ⟨⟨State.reset.halt, true⟩, rfl, rfl⟩⟩

end Sys2Proof.Machine
end

/-! PROOFS of 10_state.md. What a decoded instruction does to `pc`: the step moves it past the instruction, and the
execute phase of JMP and of a taken JEQ alone moves it again (R14). -/

namespace Sys2Proof

/-- Everything a successful decoding says about the bytes, by the number of operand bytes of the opcode (R51, R54). -/
theorem decode_cases {bs rest : List Byte} {i : Instr} (h : decode bs = .ok (i, rest)) :
    ∃ o : Opcode,
      (o.operandBytes = 0 ∧ i = o.instr 0 0 ∧ bs = o.byte :: rest) ∨
      (o.operandBytes = 1 ∧ ∃ b1, i = o.instr b1 0 ∧ bs = o.byte :: b1 :: rest) ∨
      (o.operandBytes = 2 ∧ ∃ b1 b2, i = o.instr b1 b2 ∧ bs = o.byte :: b1 :: b2 :: rest) := by
  rcases bs with _ | ⟨op, bytes⟩
  · cases h
  · cases ho : Opcode.ofByte? op with
    | none => simp [decode, ho] at h
    | some o =>
      obtain rfl := Opcode.byte_of_ofByte? ho
      simp only [decode, Opcode.ofByte?_byte] at h
      refine ⟨o, ?_⟩
      split at h
      case h_1 hn => cases h; exact .inl ⟨hn, rfl, rfl⟩
      case h_2 hn => cases h; exact .inr (.inl ⟨hn, _, rfl, rfl⟩)
      case h_3 hn => cases h; exact .inr (.inr ⟨hn, _, _, rfl, rfl⟩)
      case h_4 => cases h

/-- The length of an instruction is the one its opcode fixes, whatever its operand bytes (R50). -/
@[simp] theorem Opcode.instr_length (o : Opcode) (b1 b2 : Byte) : (o.instr b1 b2).length = 1 + o.operandBytes := by
  simp [Instr.length]

/-- Decoding takes as many bytes as the instruction is long (R54). -/
theorem length_of_decode {bs rest : List Byte} {i : Instr} (h : decode bs = .ok (i, rest)) :
    bs.length = i.length + rest.length := by
  obtain ⟨o, ⟨hn, rfl, rfl⟩ | ⟨hn, b1, rfl, rfl⟩ | ⟨hn, b1, b2, rfl, rfl⟩⟩ := decode_cases h <;>
    simp [hn] <;> omega

end Sys2Proof

namespace Sys2Proof.Machine

/-! ## From the decoded bytes to the execute phase -/

/-- A fetch that finds a byte at `p` gives it, `p` moved by one (R72). -/
theorem fetch_setPc_of_code {s : State} {p : PcWord} {v : Byte} {rest : List Byte} (h : (s.setPc p).code = v :: rest) :
    fetch (s.setPc p) = .ok (v, s.setPc (p + 1)) ∧ (s.setPc (p + 1)).code = rest := by
  obtain ⟨e, hcode, _⟩ := fetch_of_code h
  exact ⟨e, hcode⟩

/-- With an opcode byte at `pc` the instruction fetch is the fetch of its operand bytes, `pc` past the opcode (R74). -/
theorem fetchInstr_of_code {s : State} {o : Opcode} {bytes : List Byte} (h : s.code = o.byte :: bytes) :
    fetchInstr s = fetchOperands o (s.setPc (s.pc + 1)) ∧ (s.setPc (s.pc + 1)).code = bytes := by
  obtain ⟨e, hcode, _⟩ := fetch_of_code h
  exact ⟨by simp [fetchInstr, e], hcode⟩

/-- The byte-by-byte fetch gives the instruction that the bytes at `pc` decode to, and moves `pc` by its length
(R73 to R75). -/
theorem fetchInstr_of_decode {s : State} {i : Instr} {rest : List Byte} (h : decode s.code = .ok (i, rest)) :
    fetchInstr s = .ok (i, s.setPc (s.pc + BitVec.ofNat 9 i.length)) := by
  obtain ⟨o, ⟨hn, rfl, hc⟩ | ⟨hn, b1, rfl, hc⟩ | ⟨hn, b1, b2, rfl, hc⟩⟩ := decode_cases h <;>
    obtain ⟨e, hc1⟩ := fetchInstr_of_code hc <;> rw [e, Opcode.instr_length, hn]
  · simp [fetchOperands, hn]
  · obtain ⟨e1, _⟩ := fetch_setPc_of_code hc1
    simp only [fetchOperands, hn, e1]
    rw [BitVec.add_assoc]
    rfl
  · obtain ⟨e1, hc2⟩ := fetch_setPc_of_code hc1
    obtain ⟨e2, _⟩ := fetch_setPc_of_code hc2
    simp only [fetchOperands, hn, e1, e2]
    rw [BitVec.add_assoc, BitVec.add_assoc]
    rfl

/-- A step of a running core is the execute phase of the instruction decoded at `pc` (R70). -/
theorem step_of_decode {s : State} {i : Instr} {rest : List Byte} (hh : s.halted = false)
    (h : decode s.code = .ok (i, rest)) : step s = exec i (s.enter i.length) := by
  have hf := fetchInstr_of_decode (s := s.expire) (by rwa [State.code_expire])
  rw [State.expire_pc] at hf
  simp [step, runCycle, hh, hf, State.enter, State.setPc]

/-- An instruction that decodes ends inside memory, so `pc` moves past it without wrapping (R50, R72). -/
theorem enter_pc_toNat {s : State} {i : Instr} {rest : List Byte} (h : decode s.code = .ok (i, rest)) :
    (s.enter i.length).pc.toNat = s.pc.toNat + i.length := by
  have hlen := length_of_decode h
  have hpos : 0 < i.length := by simp [Instr.length]
  rw [State.code_length] at hlen
  simp only [State.enter, BitVec.toNat_add, BitVec.toNat_ofNat]
  omega

/-- Moving `pc` past the instruction leaves the flag of the expiry phase. -/
@[simp] theorem State.enter_equalFlag (s : State) (n : Nat) : (s.enter n).equalFlag = s.expire.equalFlag := rfl

/-! ## What the execute phase does to `pc` -/

/-- What the index fault and every continuation leave, the use of one register operand leaves (R76). -/
theorem withReg_next {P : State → Prop} {b : Byte} {s t : State} {k : Fin 8 → StepOutcome}
    (hraise : P (s.raise (.registerIndexOutOfRange b))) (hk : ∀ i u, k i = .next u → P u)
    (h : withReg b s k = .next t) : P t := by
  rcases withReg_cases b s k with ⟨i, _, e⟩ | ⟨_, e⟩ <;> rw [e] at h
  · exact hk i t h
  · cases h
    exact hraise

/-- What the index faults and every continuation leave, the use of two register operands leaves (R76, R78). -/
theorem withTwoRegs_next {P : State → Prop} {b1 b2 : Byte} {s t : State} {k : Fin 8 → Fin 8 → StepOutcome}
    (hraise : ∀ b, P (s.raise (.registerIndexOutOfRange b))) (hk : ∀ i j u, k i j = .next u → P u)
    (h : withTwoRegs b1 b2 s k = .next t) : P t :=
  withReg_next (hraise b1) (fun i _ hi => withReg_next (hraise b2) (hk i) hi) h

/-- The index check keeps `pc` when every continuation does. -/
theorem withReg_pc {b : Byte} {s t : State} {k : Fin 8 → StepOutcome} (hk : ∀ i u, k i = .next u → u.pc = s.pc)
    (h : withReg b s k = .next t) : t.pc = s.pc :=
  withReg_next (P := fun u => u.pc = s.pc) rfl hk h

/-- The index checks keep `pc` when every continuation does. -/
theorem withTwoRegs_pc {b1 b2 : Byte} {s t : State} {k : Fin 8 → Fin 8 → StepOutcome}
    (hk : ∀ i j u, k i j = .next u → u.pc = s.pc) (h : withTwoRegs b1 b2 s k = .next t) : t.pc = s.pc :=
  withTwoRegs_next (P := fun u => u.pc = s.pc) (fun _ => rfl) hk h

theorem binaryOp_pc {f : Byte → Byte → Byte} {b1 b2 : Byte} {s t : State} (h : binaryOp f b1 b2 s = .next t) :
    t.pc = s.pc :=
  withTwoRegs_pc (by rintro _ _ _ ⟨⟩; rfl) h

theorem execDiv_pc {b1 b2 : Byte} {s t : State} (h : execDiv b1 b2 s = .next t) : t.pc = s.pc := by
  refine withTwoRegs_pc (fun d r u hu => ?_) h
  split at hu <;> cases hu <;> rfl

/-- The `pc` an execute phase leaves: the target of a jump that is taken, else the one it began with (R14). -/
def pcAfterExec (s : State) : Instr → PcWord
  | .jmp a => jumpTarget a
  | .jeq _ a => if s.equalFlag then jumpTarget a else s.pc
  | _ => s.pc

/-- The execute phase leaves that `pc`, faulting or not: a fault keeps `pc` (R153) and no jump raises one. -/
theorem exec_pc {i : Instr} {s t : State} (h : exec i s = .next t) : t.pc = pcAfterExec s i := by
  cases i with
  | mov | cmp => exact withTwoRegs_pc (by rintro _ _ _ ⟨⟩; rfl) h
  | put | out | in_ => exact withReg_pc (by rintro _ _ ⟨⟩; rfl) h
  | add | sub | mul | or | and | xor => exact binaryOp_pc h
  | div => exact execDiv_pc h
  | jeq u a =>
    simp only [exec, execJeq] at h
    split at h <;> cases h <;> simp [pcAfterExec, *]
  | jmp | nop | hlt => cases h; rfl

/-- Settles O46: `pc` has moved past the instruction without wrapping, and only a jump that is taken replaces it. -/
theorem pcAfterEachInstruction : Obligations.PcAfterEachInstruction := by
  intro s t i rest hh _ hd hs _
  rw [step_of_decode hh hd] at hs
  have hnext := enter_pc_toNat hd
  rw [exec_pc hs]
  cases i with
  | jmp a => exact jumpTarget_toNat a
  | jeq u a =>
    by_cases hf : s.expire.equalFlag
    · simp [pcAfterExec, hf]
    · simp only [pcAfterExec, State.enter_equalFlag, hf, Bool.false_eq_true, if_false]
      exact hnext
  | mov | put | add | sub | mul | div | or | and | xor | out | in_ | cmp | nop | hlt => exact hnext

end Sys2Proof.Machine

/-! PROOFS of 30_encoding.md. The encoding and both columns of the opcode map are one-to-one (R59) because each has a
left inverse: the decoder, the search for a byte, and the assembler's search for a mnemonic. -/

namespace Sys2Proof

open Laws in
/-- Every encoding has the shape of R50 and R51, put together from the laws of the single instructions. -/
theorem encodingShape (i : Instr) : EncodingShape.Statement i := by
  cases i
  exacts [EncodingShape.mov _ _, EncodingShape.put _ _, EncodingShape.add _ _, EncodingShape.sub _ _,
    EncodingShape.mul _ _, EncodingShape.div _ _, EncodingShape.or _ _, EncodingShape.and _ _, EncodingShape.xor _ _,
    EncodingShape.out _, EncodingShape.in_ _, EncodingShape.jmp _, EncodingShape.jeq _ _, EncodingShape.cmp _ _,
    EncodingShape.nop, EncodingShape.hlt]

/-- The length of an encoding is the one the opcode fixes (R50). -/
@[simp] theorem length_encode (i : Instr) : (encode i).length = 1 + i.opcode.operandBytes :=
  (encodingShape i).2

/-- Decoding undoes encoding, whatever bytes follow (R54, R59). -/
@[simp] theorem decode_encode_append (i : Instr) (rest : List Byte) : decode (encode i ++ rest) = .ok (i, rest) := by
  cases i <;> rfl

/-- No encoding is a proper prefix of another: what decodes back determines the instruction and the bytes after it. -/
theorem encode_append_inj {i j : Instr} {rest rest' : List Byte} (h : encode i ++ rest = encode j ++ rest') :
    i = j ∧ rest = rest' := by
  have hdec : (Except.ok (i, rest) : Except DecodeError (Instr × List Byte)) = .ok (j, rest') := by
    rw [← decode_encode_append i rest, h, decode_encode_append]
  simpa using hdec

/-- The opcode map gives each mnemonic one byte: looking the byte up undoes it (R55, R59). -/
theorem Opcode.byte_injective : Function.Injective Opcode.byte := fun o p h => by
  have hlookup : some o = some p := by rw [← Opcode.ofByte?_byte o, h, Opcode.ofByte?_byte]
  exact Option.some.inj hlookup

/-- The assembler's lookup finds each opcode under its mnemonic (R55, R63). -/
@[simp] theorem Machine.opcodeOfMnemonic?_mnemonic (o : Opcode) : Machine.opcodeOfMnemonic? o.mnemonic = some o := by
  cases o <;> decide

/-- No two opcodes are spelt alike: looking the mnemonic up undoes it (R55, R59). -/
theorem Opcode.mnemonic_injective : Function.Injective Opcode.mnemonic := fun o p h => by
  have hlookup : some o = some p := by
    rw [← Machine.opcodeOfMnemonic?_mnemonic o, h, Machine.opcodeOfMnemonic?_mnemonic]
  exact Option.some.inj hlookup

/-- Settles O3: the decoder is a left inverse of encoding, and each column of the opcode map has one as well. -/
theorem encodingIsOneToOne : Obligations.EncodingIsOneToOne := by
  refine ⟨fun _ _ _ _ => encode_append_inj, fun _ _ h => Opcode.byte_injective h,
    fun _ _ h => Opcode.mnemonic_injective h, fun i => ?_⟩
  have hle := i.opcode.operandBytes_le_two
  rw [length_encode]
  omega

end Sys2Proof

/-! PROOFS of 46_system.md. NOP and HLT are entered through their encodings (R50, R70), and the halted state that HLT
leaves is one that no step changes (R18). -/

namespace Sys2Proof.Machine

/-- A step of a running core is the execute phase of the instruction whose encoding stands at `pc` (R54, R70). -/
theorem step_of_encode {s : State} {i : Instr} {rest : List Byte} (hh : s.halted = false)
    (h : s.code = encode i ++ rest) : step s = exec i (s.enter i.length) :=
  step_of_decode hh (by rw [h, decode_encode_append])

/-- An instruction whose encoding is its opcode byte alone is entered with `pc` moved by one (R51). -/
theorem runsAs1_of_encode {op : Byte} {i : Instr} (henc : encode i = [op]) : RunsAs1 op i := by
  intro s rest hh hcode
  have hlen : i.length = 1 := by rw [Instr.length, ← length_encode, henc, List.length_singleton]
  rw [step_of_encode (rest := rest) hh (by rw [hcode, henc, List.singleton_append]), hlen]

/-- The execute phase of NOP answers the state it is given (R140). -/
theorem exec_nop (s : State) : exec .nop s = .next s := rfl

/-- The execute phase of HLT sets `halted` (R141). -/
theorem exec_hlt (s : State) : exec .hlt s = .next s.halt := rfl

/-- A step from a halted state that answers answers that state: there is no way on from it (R18). -/
theorem step_eq_of_halted {s t : State} (hh : s.halted = true) (h : step s = .next t) : t = s := by
  rw [step_of_halted hh] at h
  exact (Host.Outcome.next.inj h).symm

/-- Settles O38: one byte encodes NOP, and its execute phase is the identity. -/
theorem nopHasNoEffectOfItsOwn : Obligations.NopHasNoEffectOfItsOwn :=
  ⟨runsAs1_of_encode (i := .nop) rfl, exec_nop⟩

/-- Settles O39: one byte encodes HLT, its execute phase only sets `halted`, and a halted state steps to itself. -/
theorem hltHalts : Obligations.HltHalts := by
  refine ⟨runsAs1_of_encode (i := .hlt) rfl, exec_hlt, fun s t u ht hu => ?_⟩
  rw [exec_hlt] at ht
  obtain rfl := Host.Outcome.next.inj ht
  exact step_eq_of_halted s.halt_halted hu

end Sys2Proof.Machine

/-! PROOFS of 60_exceptions.md. Raising a fault is halting the core (R141) and then writing the fault record: neither
part touches any other field, so the state with the three fields written is the raised one by definition (R153). -/

namespace Sys2Proof.Machine

/-- Settles O12: halting and then writing the record is the one update of the three fields, by unfolding both. -/
theorem raiseRecordsAndHalts : Obligations.RaiseRecordsAndHalts := fun _ _ => rfl

end Sys2Proof.Machine

/-! PROOFS of 30_encoding.md and 40_execution_cycle.md: decoding in full. Each way a decoding can end, read off the
bytes and read back from them, and the step that each leads to. -/

namespace Sys2Proof

/-- A decoded instruction with the bytes left is the encoding it was read from with those bytes after it (R54). -/
theorem eq_encode_of_decode {bs rest : List Byte} {i : Instr} (h : decode bs = .ok (i, rest)) :
    bs = encode i ++ rest := by
  obtain ⟨o, ⟨hn, rfl, rfl⟩ | ⟨hn, b1, rfl, rfl⟩ | ⟨hn, b1, b2, rfl, rfl⟩⟩ := decode_cases h <;>
    simp [encode_instr, hn]

/-- Settles O2: decoding reads an encoding off the bytes, and decoding undoes encoding. -/
theorem decodeAndEncodeAgree : Obligations.DecodeAndEncodeAgree := by
  intro bs rest i
  constructor
  · exact eq_encode_of_decode
  · rintro rfl
    exact decode_encode_append i rest

/-- Settles O1: each printed byte string is the encoding of its instruction. -/
theorem printedEncodingsDecode : Obligations.PrintedEncodingsDecode := by
  unfold Obligations.PrintedEncodingsDecode
  simp only [decodeAndEncodeAgree _ _ _]
  decide

/-- After an opcode byte, decoding is refused exactly when fewer bytes follow than the opcode fixes (R54). -/
theorem decode_byte_cons_truncated_iff (o : Opcode) (bytes : List Byte) :
    decode (o.byte :: bytes) = .error .truncated ↔ bytes.length < o.operandBytes := by
  have hle := o.operandBytes_le_two
  obtain hn | hn | hn : o.operandBytes = 0 ∨ o.operandBytes = 1 ∨ o.operandBytes = 2 := by omega
  · simp [decode, hn]
  · rcases bytes with _ | ⟨b1, rest⟩ <;> simp [decode, hn]
  · rcases bytes with _ | ⟨b1, _ | ⟨b2, rest⟩⟩ <;> simp [decode, hn]

/-- A byte string is refused as truncated exactly when it ends before the opcode or before the last operand byte that
the opcode fixes (R54). -/
theorem decode_truncated_iff {bs : List Byte} :
    decode bs = .error .truncated ↔
      bs = [] ∨ ∃ (o : Opcode) (bytes : List Byte), bs = o.byte :: bytes ∧ bytes.length < o.operandBytes := by
  rcases bs with _ | ⟨b, bytes⟩
  · simp [decode]
  · cases ho : Opcode.ofByte? b with
    | none =>
      have hne : ∀ o : Opcode, b ≠ o.byte := by
        rintro o rfl
        simp at ho
      simp [decode, ho, hne]
    | some o =>
      obtain rfl := Opcode.byte_of_ofByte? ho
      rw [decode_byte_cons_truncated_iff]
      constructor
      · exact fun h => .inr ⟨o, bytes, rfl, h⟩
      · rintro (h | ⟨p, bytes', h, hlt⟩)
        · cases h
        · obtain ⟨hb, rfl⟩ := List.cons.inj h
          rwa [Opcode.byte_injective hb]

/-- A byte string is refused as illegal exactly for its first byte, an opcode of no row (R57). -/
theorem decode_illegal_iff {bs : List Byte} {op : Byte} :
    decode bs = .error (.illegalOpcode op) ↔ Opcode.ofByte? op = none ∧ ∃ rest, bs = op :: rest := by
  constructor
  · intro h
    rcases bs with _ | ⟨b, bytes⟩
    · cases h
    · cases ho : Opcode.ofByte? b with
      | none =>
        simp only [decode, ho, Except.error.injEq, DecodeError.illegalOpcode.injEq] at h
        subst h
        exact ⟨ho, bytes, rfl⟩
      | some o =>
        simp only [decode, ho] at h
        split at h <;> cases h
  · rintro ⟨ho, rest, rfl⟩
    simp only [decode, ho]

end Sys2Proof

namespace Sys2Proof.Machine

/-! ## The step by what the bytes at `pc` decode to -/

/-- A fault of the fetch ends the step of a running core (R70). -/
theorem step_of_fetch_error {s t : State} (hh : s.halted = false) (h : fetchInstr s.expire = .error t) :
    step s = .next t := by
  simp [step, runCycle, hh, h]

/-- An illegal opcode byte ends the step with its fault, `pc` one past the byte (R74). -/
theorem step_of_illegal {s : State} {op : Byte} {rest : List Byte} (hh : s.halted = false) (hc : s.code = op :: rest)
    (ho : Opcode.ofByte? op = none) : step s = .next ((s.enter 1).raise (.illegalOpcode op)) := by
  apply step_of_fetch_error hh
  obtain ⟨e, -, -⟩ := fetch_of_code (s := s.expire) (by rwa [State.code_expire])
  simp only [fetchInstr, e, ho, State.expire_pc]
  rfl

/-- Where running out of bytes leaves `pc`: at the end of memory, or where it was when it was already there (R72). -/
def State.endPc (s : State) : PcWord := if s.pc.toNat < 256 then 256 else s.pc

theorem State.endPc_of_le {s : State} (h : s.pc.toNat ≤ 256) : s.endPc = 256 := by
  unfold State.endPc
  split <;> bv_omega

/-- One more fetched byte does not change where running out of bytes leads. -/
theorem State.endPc_setPc_succ {s : State} (h : s.pc.toNat < 256) : (s.setPc (s.pc + 1)).endPc = s.endPc := by
  have hnext : (s.setPc (s.pc + 1)).pc.toNat = s.pc.toNat + 1 := pc_succ_toNat h
  rw [endPc_of_le (by omega), endPc_of_le (by omega)]

/-- With no byte left the fetch raises where running out of bytes leads. -/
theorem fetch_of_code_nil {s : State} (h : s.code = []) :
    fetch s = .error ((s.setPc s.endPc).raise .pcOutOfBounds) := by
  have hlen := s.code_length
  have hpc : s.endPc = s.pc := if_neg (by simp [h] at hlen; omega)
  rw [fetch_of_nil h, hpc]
  rfl

/-- A fetch that finds a byte gives it and changes neither the end nor the bytes after it (R72). -/
theorem fetch_of_code_cons {s : State} {v : Byte} {rest : List Byte} (h : s.code = v :: rest) :
    ∃ p : PcWord, fetch s = .ok (v, s.setPc p) ∧ (s.setPc p).code = rest ∧ (s.setPc p).endPc = s.endPc := by
  obtain ⟨e, hc, hlt⟩ := fetch_of_code h
  exact ⟨s.pc + 1, e, hc, State.endPc_setPc_succ hlt⟩

/-- With fewer bytes left than the opcode fixes, the operand fetch raises at the end of memory (R75). -/
theorem fetchOperands_of_short {s : State} {o : Opcode} (h : s.code.length < o.operandBytes) :
    fetchOperands o s = .error ((s.setPc s.endPc).raise .pcOutOfBounds) := by
  have hle := o.operandBytes_le_two
  rcases hc : s.code with _ | ⟨b1, rest⟩
  · have e := fetch_of_code_nil hc
    obtain hn | hn : o.operandBytes = 1 ∨ o.operandBytes = 2 := by omega
    · simp only [fetchOperands, hn, e]
    · simp only [fetchOperands, hn, e]
  · rw [hc, List.length_cons] at h
    have hn : o.operandBytes = 2 := by omega
    obtain ⟨p, e1, hc1, hp⟩ := fetch_of_code_cons hc
    have e2 := fetch_of_code_nil (hc1.trans (List.length_eq_zero_iff.1 (by omega)))
    simp only [fetchOperands, hn, e1, e2, hp]
    rfl

/-- Too few bytes for an instruction end the step with `PcOutOfBounds` at the end of memory (R72, R75). -/
theorem step_of_truncated {s : State} (hh : s.halted = false) (h : decode s.code = .error .truncated) :
    step s = .next ((s.expire.setPc s.endPc).raise .pcOutOfBounds) := by
  have hend : s.expire.endPc = s.endPc := by simp [State.endPc]
  rw [← State.code_expire] at h
  rw [← hend]
  apply step_of_fetch_error hh
  obtain hc | ⟨o, bytes, hc, hlt⟩ := decode_truncated_iff.1 h
  · simp [fetchInstr, fetch_of_code_nil hc]
  · obtain ⟨p, e, hc1, hp⟩ := fetch_of_code_cons hc
    rw [← hc1] at hlt
    simp only [fetchInstr, e, Opcode.ofByte?_byte, fetchOperands_of_short hlt, hp]
    rfl

/-- Inside memory, or at its end, running out of bytes leaves `pc` at 256 (R72). -/
theorem step_of_truncated_of_le {s : State} (hh : s.halted = false) (hpc : s.pc.toNat ≤ 256)
    (h : decode s.code = .error .truncated) : step s = .next ({ s.expire with pc := 256 }.raise .pcOutOfBounds) := by
  rw [step_of_truncated hh h, State.endPc_of_le hpc]
  rfl

/-- Settles O6: the byte-by-byte fetch finds the instruction that the bytes decode to. -/
theorem stepRunsDecodedInstruction : Obligations.StepRunsDecodedInstruction :=
  fun _ _ _ hh hd => step_of_decode hh hd

/-- Settles O7: the three ways a decoding can end are the three ways a fetch can. -/
theorem stepIsDecodingOfTheRemainingMemory : Obligations.StepIsDecodingOfTheRemainingMemory := by
  refine ⟨fun s hh hpc => ?_, fun s t hh h => step_eq_of_halted hh h⟩
  split
  case h_1 i rest hd => exact step_of_decode hh hd
  case h_2 op hd =>
    obtain ⟨ho, rest, hc⟩ := decode_illegal_iff.1 hd
    exact step_of_illegal hh hc ho
  case h_3 hd => exact step_of_truncated_of_le hh hpc hd

/-- Settles O4: the two range facts are checked over the 256 bytes, the step is that of an illegal opcode. -/
theorem illegalOpcodesHaltAndAreReported : Obligations.IllegalOpcodesHaltAndAreReported :=
  ⟨by decide, by decide +kernel, fun _ _ _ hh hc ho => step_of_illegal hh hc ho⟩

/-- Settles O10: the fetch reads at the one or raises at the other kind of `pc`. -/
theorem fetchReadsOrRaises : Obligations.FetchReadsOrRaises := by
  refine fun s => ⟨fun n hn hp => ?_, fun hp => ⟨?_, hp⟩⟩
  · have hlt : s.pc.toNat < 256 := by omega
    have haddr : s.pc.setWidth 8 = BitVec.ofNat 8 n := by
      rw [← hp]
      apply BitVec.eq_of_toNat_eq
      simp
    refine ⟨s.setPc (s.pc + 1), ?_, by rw [State.setPc_pc, pc_succ_toNat hlt, hp], rfl⟩
    rw [(fetch_of_code (State.code_of_lt hlt)).1, haddr]
  · exact fetch_of_nil (State.code_of_ge (by simp [hp]))

end Sys2Proof.Machine

/-! PROOFS of 41_move.md to 45_control.md, part 1. The effect of an execute phase as data: which of eight things it does
to the state, computed from the registers, the flag and the next input byte alone. Everything else a statement says
about an execute phase is then a fact about eight updates. -/

namespace Sys2Proof.Machine

/-- What an execute phase can do to the state. -/
inductive Effect where
  /-- NOP, and a JEQ that is not taken. -/
  | nothing
  /-- One register takes a value. -/
  | setReg (d : Fin 8) (v : Byte)
  /-- IN: the position of the input moves on, and one register takes a value. -/
  | takeInput (d : Fin 8) (v : Byte)
  /-- OUT: one byte more on the output. -/
  | emit (v : Byte)
  /-- JMP, and a JEQ that is taken. -/
  | jump (a : Addr)
  /-- CMP: the flag takes the comparison's result, the countdown starts. -/
  | armFlag (equal : Bool)
  /-- HLT. -/
  | halt
  /-- A fault. -/
  | raise (f : RuntimeFault)

/-- The state an effect leaves. -/
def Effect.apply : Effect → State → State
  | .nothing, s => s
  | .setReg d v, s => s.setReg d v
  | .takeInput d v, s => s.dropInput.setReg d v
  | .emit v, s => s.emit v
  | .jump a, s => s.setPc (jumpTarget a)
  | .armFlag equal, s => s.armFlag equal
  | .halt, s => s.halt
  | .raise f, s => s.raise f

section
variable (s : State)

@[simp] theorem Effect.apply_nothing : Effect.nothing.apply s = s := rfl
@[simp] theorem Effect.apply_setReg (d : Fin 8) (v : Byte) : (Effect.setReg d v).apply s = s.setReg d v := rfl
@[simp] theorem Effect.apply_takeInput (d : Fin 8) (v : Byte) :
    (Effect.takeInput d v).apply s = s.dropInput.setReg d v := rfl
@[simp] theorem Effect.apply_emit (v : Byte) : (Effect.emit v).apply s = s.emit v := rfl
@[simp] theorem Effect.apply_jump (a : Addr) : (Effect.jump a).apply s = s.setPc (jumpTarget a) := rfl
@[simp] theorem Effect.apply_armFlag (equal : Bool) : (Effect.armFlag equal).apply s = s.armFlag equal := rfl
@[simp] theorem Effect.apply_halt : Effect.halt.apply s = s.halt := rfl
@[simp] theorem Effect.apply_raise (f : RuntimeFault) : (Effect.raise f).apply s = s.raise f := rfl

end

/-- The use of one register operand as an effect: that of its index, or the index fault (R76). -/
def onReg (b : Byte) (k : Fin 8 → Effect) : Effect :=
  match regIdx? b with
  | some i => k i
  | none => .raise (.registerIndexOutOfRange b)

/-- The use of two register operands as an effect, in the order of the checks (R78). -/
def onTwoRegs (b1 b2 : Byte) (k : Fin 8 → Fin 8 → Effect) : Effect := onReg b1 fun i => onReg b2 (k i)

/-- The effect of an execute phase. Its arguments are all that an execute phase reads of the state: the registers, the
flag and the next input byte. -/
def effect (i : Instr) (x : Vector Byte 8) (flag : Bool) (next? : Option Byte) : Effect :=
  match i with
  | .mov b1 b2 => onTwoRegs b1 b2 fun d r => .setReg d x[r]
  | .put b1 b2 => onReg b1 fun d => .setReg d b2
  | .add b1 b2 => onTwoRegs b1 b2 fun d r => .setReg d (aluAdd x[d] x[r])
  | .sub b1 b2 => onTwoRegs b1 b2 fun d r => .setReg d (aluSub x[d] x[r])
  | .mul b1 b2 => onTwoRegs b1 b2 fun d r => .setReg d (aluMul x[d] x[r])
  | .div b1 b2 => onTwoRegs b1 b2 fun d r => if x[r] = 0 then .raise .divideByZero else .setReg d (aluDiv x[d] x[r])
  | .or b1 b2 => onTwoRegs b1 b2 fun d r => .setReg d (x[d] ||| x[r])
  | .and b1 b2 => onTwoRegs b1 b2 fun d r => .setReg d (x[d] &&& x[r])
  | .xor b1 b2 => onTwoRegs b1 b2 fun d r => .setReg d (x[d] ^^^ x[r])
  | .out b1 => onReg b1 fun r => .emit x[r]
  | .in_ b1 => onReg b1 fun d => .takeInput d (next?.getD Config.inEofValue)
  | .jmp a => .jump a
  | .jeq _ a => if flag then .jump a else .nothing
  | .cmp b1 b2 => onTwoRegs b1 b2 fun a b => .armFlag (x[a] == x[b])
  | .nop => .nothing
  | .hlt => .halt

/-- The effect of an execute phase in a state. -/
abbrev effectIn (i : Instr) (s : State) : Effect := effect i s.x s.equalFlag s.input.head?

/-! ## The rules of the two operand uses -/

@[simp] theorem onReg_regByte (i : Fin 8) (k : Fin 8 → Effect) : onReg (regByte i) k = k i := by
  simp [onReg]

theorem onReg_of_ge {b : Byte} (h : 8 ≤ b.toNat) (k : Fin 8 → Effect) :
    onReg b k = .raise (.registerIndexOutOfRange b) := by
  simp [onReg, regIdx?_of_ge h]

@[simp] theorem onTwoRegs_regByte (i j : Fin 8) (k : Fin 8 → Fin 8 → Effect) :
    onTwoRegs (regByte i) (regByte j) k = k i j := by
  simp [onTwoRegs]

theorem onTwoRegs_of_ge_left {b1 : Byte} (h : 8 ≤ b1.toNat) (b2 : Byte) (k : Fin 8 → Fin 8 → Effect) :
    onTwoRegs b1 b2 k = .raise (.registerIndexOutOfRange b1) :=
  onReg_of_ge h _

/-- An operand byte below 8 names a register (R52). -/
theorem exists_regByte_of_lt {b : Byte} (h : b.toNat < 8) : ∃ i : Fin 8, b = regByte i :=
  ⟨⟨b.toNat, h⟩, by simp [regByte]⟩

theorem onTwoRegs_of_ge_right {b1 b2 : Byte} (h1 : b1.toNat < 8) (h2 : 8 ≤ b2.toNat) (k : Fin 8 → Fin 8 → Effect) :
    onTwoRegs b1 b2 k = .raise (.registerIndexOutOfRange b2) := by
  obtain ⟨i, rfl⟩ := exists_regByte_of_lt h1
  simp only [onTwoRegs, onReg_regByte, onReg_of_ge h2]

theorem withReg_eq_onReg {b : Byte} {s : State} {k : Fin 8 → StepOutcome} {e : Fin 8 → Effect}
    (hk : ∀ i, k i = .next ((e i).apply s)) : withReg b s k = .next ((onReg b e).apply s) := by
  rcases Nat.lt_or_ge b.toNat 8 with h | h
  · obtain ⟨i, rfl⟩ := exists_regByte_of_lt h
    rw [withReg_regByte, onReg_regByte, hk]
  · rw [withReg_of_ge h, onReg_of_ge h, Effect.apply_raise]

theorem withTwoRegs_eq_onTwoRegs {b1 b2 : Byte} {s : State} {k : Fin 8 → Fin 8 → StepOutcome}
    {e : Fin 8 → Fin 8 → Effect} (hk : ∀ i j, k i j = .next ((e i j).apply s)) :
    withTwoRegs b1 b2 s k = .next ((onTwoRegs b1 b2 e).apply s) :=
  withReg_eq_onReg fun i => withReg_eq_onReg (hk i)

theorem toNat_eq_zero_iff {b : Byte} : b.toNat = 0 ↔ b = 0 := BitVec.toNat_inj (y := 0)

/-- Every execute phase answers the state its effect leaves: the tie between `effect` and the model (R77). -/
theorem exec_eq_effect (i : Instr) (s : State) : exec i s = .next ((effectIn i s).apply s) := by
  cases i with
  | mov | add | sub | mul | or | and | xor => exact withTwoRegs_eq_onTwoRegs fun _ _ => rfl
  | put | out | in_ => exact withReg_eq_onReg fun _ => rfl
  | div =>
    refine withTwoRegs_eq_onTwoRegs fun d r => ?_
    simp only [State.reg_eq, toNat_eq_zero_iff]
    rw [apply_ite (fun e => Host.Outcome.next (Effect.apply e s))]
    rfl
  | cmp =>
    refine withTwoRegs_eq_onTwoRegs fun a b => ?_
    simp only [State.reg_eq, compareEqual, BitVec.toNat_inj]
    rfl
  | jeq =>
    simp only [exec, execJeq, effect]
    split <;> rfl
  | jmp | nop | hlt => rfl

/-- The one state an execute phase can answer. -/
theorem eq_apply_of_exec {i : Instr} {s t : State} (h : exec i s = .next t) : t = (effectIn i s).apply s := by
  rw [exec_eq_effect] at h
  exact (Host.Outcome.next.inj h).symm

/-! ## Entry of an instruction by its bytes -/

/-- The opcode byte and the number of operand bytes of an instruction, read off its encoding (R51). -/
theorem opcode_of_encode {i : Instr} {op : Byte} {operands : List Byte} (h : encode i = op :: operands) :
    op = i.opcode.byte ∧ i.opcode.operandBytes = operands.length := by
  obtain ⟨hhead, hlen⟩ := encodingShape i
  rw [h] at hhead hlen
  simp only [List.head?_cons, Option.some.injEq, List.length_cons, Instr.length] at hhead hlen
  exact ⟨hhead, by omega⟩

/-- A step at the opcode byte of an instruction with too few bytes after it: `pc` ends at 256 (R72, R75). -/
theorem step_of_short {s : State} {i : Instr} {op : Byte} {operands bytes : List Byte}
    (henc : encode i = op :: operands) (hh : s.halted = false) (hc : s.code = op :: bytes) (hlt : bytes.length < operands.length) :
    step s = .next ({ s.expire with pc := 256 }.raise .pcOutOfBounds) := by
  obtain ⟨hop, hlen⟩ := opcode_of_encode henc
  have hpc := (fetch_of_code hc).2.2
  refine step_of_truncated_of_le hh (by omega) ?_
  rw [hc, hop, decode_byte_cons_truncated_iff, hlen]
  exact hlt

/-- An instruction with two operand bytes is entered past its three bytes, or its operand fetch raises (R51, R75). -/
theorem runsAs3_of_encode {op : Byte} {mk : Byte → Byte → Instr} (henc : ∀ b1 b2, encode (mk b1 b2) = [op, b1, b2]) :
    RunsAs3 op mk := by
  intro s b1 b2 rest hh
  refine ⟨fun hc => ?_, ?_⟩
  · have hlen : (mk b1 b2).length = 3 := by rw [Instr.length, (opcode_of_encode (henc b1 b2)).2]; rfl
    rw [step_of_encode (i := mk b1 b2) (rest := rest) hh (by rw [hc, henc]; rfl), hlen]
  · rintro (hc | hc)
    · exact step_of_short (henc b1 b2) hh hc (Nat.succ_pos _)
    · exact step_of_short (henc b1 b2) hh hc (Nat.lt_succ_self 1)

/-- An instruction with one operand byte is entered past its two bytes, or its operand fetch raises (R51, R75). -/
theorem runsAs2_of_encode {op : Byte} {mk : Byte → Instr} (henc : ∀ b1, encode (mk b1) = [op, b1]) : RunsAs2 op mk := by
  intro s b1 rest hh
  refine ⟨fun hc => ?_, fun hc => step_of_short (henc b1) hh hc (Nat.succ_pos _)⟩
  have hlen : (mk b1).length = 2 := by rw [Instr.length, (opcode_of_encode (henc b1)).2]; rfl
  rw [step_of_encode (i := mk b1) (rest := rest) hh (by rw [hc, henc]; rfl), hlen]

/-! ## The index checks -/

/-- An instruction whose effect is a use of two register operands checks both, in order (R76, R78). -/
theorem checksTwoIndices_of_effect {mk : Byte → Byte → Instr} {k : State → Fin 8 → Fin 8 → Effect}
    (heff : ∀ b1 b2 s, effectIn (mk b1 b2) s = onTwoRegs b1 b2 (k s)) : ChecksTwoIndices mk := by
  refine fun b1 b2 s => ⟨fun h1 => ?_, fun h1 h2 => ?_⟩ <;> rw [exec_eq_effect, heff]
  · rw [onTwoRegs_of_ge_left h1, Effect.apply_raise]
  · rw [onTwoRegs_of_ge_right h1 h2, Effect.apply_raise]

/-- An instruction whose effect is a use of one register operand checks it (R76). -/
theorem checksOneIndex_of_effect {mk : Byte → Instr} {k : State → Fin 8 → Effect}
    (heff : ∀ b1 s, effectIn (mk b1) s = onReg b1 (k s)) : ChecksOneIndex mk := by
  intro b1 s h1
  rw [exec_eq_effect, heff, onReg_of_ge h1, Effect.apply_raise]

/-! ## What each instruction does with legal operands -/

/-- The state after an execute phase whose effect is one register write. -/
theorem exec_of_setReg {i : Instr} {s : State} {d : Fin 8} {v : Byte} (h : effectIn i s = .setReg d v) :
    exec i s = .next { s with x := s.x.set d v } := by
  rw [exec_eq_effect, h]
  rfl

/-- Settles O24: the effect of MOV is the write of the source register's byte. -/
theorem movCopiesRegister : Obligations.MovCopiesRegister :=
  ⟨runsAs3_of_encode fun _ _ => rfl, checksTwoIndices_of_effect fun _ _ _ => rfl,
    fun d r _ => exec_of_setReg (onTwoRegs_regByte d r _)⟩

/-- Settles O25: the effect of PUT is the write of the literal. -/
theorem putLoadsLiteral : Obligations.PutLoadsLiteral :=
  ⟨runsAs3_of_encode fun _ _ => rfl, fun _ => checksOneIndex_of_effect fun _ _ => rfl,
    fun d _ _ => exec_of_setReg (onReg_regByte d _)⟩

/-- Settles O26: the effect of ADD is the write of the sum of two bytes. -/
theorem addWrapsModulo256 : Obligations.AddWrapsModulo256 := by
  refine ⟨runsAs3_of_encode fun _ _ => rfl, checksTwoIndices_of_effect fun _ _ _ => rfl, fun d r s => ?_⟩
  rw [← aluAdd_eq]
  exact exec_of_setReg (onTwoRegs_regByte d r _)

/-- Settles O27: the effect of SUB is the write of the difference of two bytes. -/
theorem subWrapsModulo256 : Obligations.SubWrapsModulo256 := by
  refine ⟨runsAs3_of_encode fun _ _ => rfl, checksTwoIndices_of_effect fun _ _ _ => rfl, fun d r s => ?_⟩
  rw [← aluSub_eq]
  exact exec_of_setReg (onTwoRegs_regByte d r _)

/-- The low byte of the 16-bit product is the 8-bit product. -/
theorem setWidth_mul_setWidth (a b : Byte) : (a.setWidth 16 * b.setWidth 16).setWidth 8 = a * b := by
  apply BitVec.eq_of_toNat_eq
  simp [BitVec.toNat_mul]

/-- Settles O28: the effect of MUL is the write of the product of two bytes, which is the low byte of the exact one. -/
theorem mulKeepsLowByte : Obligations.MulKeepsLowByte := by
  refine ⟨runsAs3_of_encode fun _ _ => rfl, checksTwoIndices_of_effect fun _ _ _ => rfl, fun d r s => ?_⟩
  rw [setWidth_mul_setWidth, ← aluMul_eq]
  exact exec_of_setReg (onTwoRegs_regByte d r _)

/-- The effect of DIV on two registers: the fault for a zero divisor, else the write of the quotient (R104). -/
theorem effect_div_regByte (d r : Fin 8) (x : Vector Byte 8) (flag : Bool) (next? : Option Byte) :
    effect (.div (regByte d) (regByte r)) x flag next? =
      if x[r] = 0 then .raise .divideByZero else .setReg d (aluDiv x[d] x[r]) :=
  onTwoRegs_regByte d r _

/-- Settles O29: the effect of DIV is its fault on a zero divisor, else the write of the quotient, which the division
equation pins. -/
theorem divFloorsOrFaults : Obligations.DivFloorsOrFaults := by
  refine ⟨runsAs3_of_encode fun _ _ => rfl, checksTwoIndices_of_effect fun _ _ _ => rfl,
    fun d r s => ⟨fun h0 => ?_, fun h0 => ?_⟩⟩
  · rw [exec_eq_effect, effectIn, effect_div_regByte, if_pos h0, Effect.apply_raise]
  · refine ⟨aluDiv s.x[d] s.x[r], exec_of_setReg ((effect_div_regByte d r _ _ _).trans (if_neg h0)),
      s.x[d].toNat % s.x[r].toNat, Nat.mod_lt _ (Nat.pos_of_ne_zero fun h => h0 (toNat_eq_zero_iff.1 h)), ?_⟩
    rw [aluDiv_toNat, Nat.div_add_mod']

/-- Settles O30: the effect of OR is the write of the bitwise OR. -/
theorem orIsBitwise : Obligations.OrIsBitwise :=
  ⟨runsAs3_of_encode fun _ _ => rfl, checksTwoIndices_of_effect fun _ _ _ => rfl,
    fun d r s => ⟨s.x[d] ||| s.x[r], exec_of_setReg (onTwoRegs_regByte d r _), fun _ => BitVec.getLsbD_or⟩⟩

/-- Settles O31: the effect of AND is the write of the bitwise AND. -/
theorem andIsBitwise : Obligations.AndIsBitwise :=
  ⟨runsAs3_of_encode fun _ _ => rfl, checksTwoIndices_of_effect fun _ _ _ => rfl,
    fun d r s => ⟨s.x[d] &&& s.x[r], exec_of_setReg (onTwoRegs_regByte d r _), fun _ => BitVec.getLsbD_and⟩⟩

/-- Settles O32: the effect of XOR is the write of the bitwise exclusive OR. -/
theorem xorIsBitwise : Obligations.XorIsBitwise :=
  ⟨runsAs3_of_encode fun _ _ => rfl, checksTwoIndices_of_effect fun _ _ _ => rfl,
    fun d r s => ⟨s.x[d] ^^^ s.x[r], exec_of_setReg (onTwoRegs_regByte d r _), fun _ => BitVec.getLsbD_xor⟩⟩

/-- The effect of OUT on a register is the emission of its byte (R124). -/
theorem effect_out_regByte (r : Fin 8) (x : Vector Byte 8) (flag : Bool) (next? : Option Byte) :
    effect (.out (regByte r)) x flag next? = .emit x[r] :=
  onReg_regByte r _

/-- The effect of IN on a register takes the next byte, or the end-of-input value (R125). -/
theorem effect_in_regByte (d : Fin 8) (x : Vector Byte 8) (flag : Bool) (next? : Option Byte) :
    effect (.in_ (regByte d)) x flag next? = .takeInput d (next?.getD Config.inEofValue) :=
  onReg_regByte d _

/-- The effect of CMP on two registers writes the flag with their equality (R133). -/
theorem effect_cmp_regByte (a b : Fin 8) (x : Vector Byte 8) (flag : Bool) (next? : Option Byte) :
    effect (.cmp (regByte a) (regByte b)) x flag next? = .armFlag (x[a] == x[b]) :=
  onTwoRegs_regByte a b _

/-- Settles O33: the effect of OUT is the emission of the register's byte. -/
theorem outEmitsOneByte : Obligations.OutEmitsOneByte := by
  refine ⟨runsAs2_of_encode fun _ => rfl, checksOneIndex_of_effect fun _ _ => rfl, fun r s => ?_⟩
  rw [exec_eq_effect, effectIn, effect_out_regByte]
  rfl

/-- Settles O34: the effect of IN takes the head of the input, and there is none at the end of input. -/
theorem inTakesOneByteOrTheEofValue : Obligations.InTakesOneByteOrTheEofValue := by
  refine ⟨runsAs2_of_encode fun _ => rfl, checksOneIndex_of_effect fun _ _ => rfl, fun d s => ⟨?_, ?_⟩⟩
  · intro v rest hin
    rw [exec_eq_effect, effectIn, effect_in_regByte]
    simp [State.setReg, State.dropInput, hin]
  · intro hin
    rw [exec_eq_effect, effectIn, effect_in_regByte]
    simp [State.setReg, State.dropInput, hin]

/-- Settles O35: the effect of JMP is the jump, whose target has the value of the address. -/
theorem jmpWritesPc : Obligations.JmpWritesPc :=
  ⟨runsAs2_of_encode fun _ => rfl, fun a _ => ⟨jumpTarget a, jumpTarget_toNat a, rfl⟩⟩

/-- Settles O36: the effect of JEQ is the jump or nothing, by the flag alone. -/
theorem jeqJumpsWhenEqual : Obligations.JeqJumpsWhenEqual := by
  refine ⟨runsAs3_of_encode fun _ _ => rfl, fun u a s => ⟨fun hf => ?_, fun hf => ?_⟩⟩
  · refine ⟨jumpTarget a, jumpTarget_toNat a, ?_⟩
    simp [exec_eq_effect, effect, hf, State.setPc]
  · simp [exec_eq_effect, effect, hf]

end Sys2Proof.Machine

/-! PROOFS of 41_move.md to 46_system.md, part 2. Which effects an instruction can have, said once by cases, and what
each effect leaves unchanged: the frames of the instructions follow. -/

namespace Sys2Proof.Machine

/-- The operand byte that names the register an instruction computes into, for the nine that do nothing else. -/
def dst? : Instr → Option Byte
  | .mov d _ | .put d _ | .add d _ | .sub d _ | .mul d _ | .div d _ | .or d _ | .and d _ | .xor d _ => some d
  | _ => none

/-- The effects an instruction can have when the registers hold `x`. -/
inductive Yields (x : Vector Byte 8) : Instr → Effect → Prop where
  | badIndex {i : Instr} {b : Byte} (hw : wellFormed i = false) (hb : 8 ≤ b.toNat) :
      Yields x i (.raise (.registerIndexOutOfRange b))
  | zeroDivisor {d r : Fin 8} (h0 : x[r] = 0) : Yields x (.div (regByte d) (regByte r)) (.raise .divideByZero)
  | write {i : Instr} {d : Fin 8} {v : Byte} (hw : wellFormed i = true) (hd : dst? i = some (regByte d))
      (h0 : ∀ d r : Fin 8, i = .div (regByte d) (regByte r) → x[r] ≠ 0) : Yields x i (.setReg d v)
  | out (r : Fin 8) (v : Byte) : Yields x (.out (regByte r)) (.emit v)
  | in_ (d : Fin 8) (v : Byte) : Yields x (.in_ (regByte d)) (.takeInput d v)
  | cmp (a b : Fin 8) (equal : Bool) : Yields x (.cmp (regByte a) (regByte b)) (.armFlag equal)
  | jmp (a : Addr) : Yields x (.jmp a) (.jump a)
  | jeqTaken (u : Byte) (a : Addr) : Yields x (.jeq u a) (.jump a)
  | jeqNotTaken (u : Byte) (a : Addr) : Yields x (.jeq u a) .nothing
  | nop : Yields x .nop .nothing
  | hlt : Yields x .hlt .halt

@[simp] theorem regByteOk_regByte (i : Fin 8) : regByteOk (regByte i) = true := by
  simp [regByteOk]

/-- An operand byte of 8 or more is not a register number. -/
theorem regByteOk_of_ge {b : Byte} (h : 8 ≤ b.toNat) : regByteOk b = false := by
  simpa [regByteOk] using h

/-- Two operand bytes name the same register only when they are the same. -/
theorem regByte_inj {i j : Fin 8} (h : regByte i = regByte j) : i = j := by
  have := congrArg BitVec.toNat h
  simpa [Fin.ext_iff] using this

theorem Yields.onReg {x : Vector Byte 8} {i : Instr} {b : Byte} {k : Fin 8 → Effect}
    (hw : regByteOk b = false → wellFormed i = false) (hk : ∀ r, b = regByte r → Yields x i (k r)) :
    Yields x i (onReg b k) := by
  rcases Nat.lt_or_ge b.toNat 8 with h | h
  · obtain ⟨r, rfl⟩ := exists_regByte_of_lt h
    rw [onReg_regByte]
    exact hk r rfl
  · rw [onReg_of_ge h]
    exact .badIndex (hw (regByteOk_of_ge h)) h

theorem Yields.onTwoRegs {x : Vector Byte 8} {i : Instr} {b1 b2 : Byte} {k : Fin 8 → Fin 8 → Effect}
    (hw : wellFormed i = (regByteOk b1 && regByteOk b2))
    (hk : ∀ d r, b1 = regByte d → b2 = regByte r → Yields x i (k d r)) : Yields x i (onTwoRegs b1 b2 k) :=
  .onReg (fun h => by rw [hw, h, Bool.false_and]) fun d hd =>
    .onReg (fun h => by rw [hw, h, Bool.and_false]) fun r hr => hk d r hd hr

/-- The effect of an execute phase is one of those its instruction can have. -/
theorem yields_effect (i : Instr) (x : Vector Byte 8) (flag : Bool) (next? : Option Byte) :
    Yields x i (effect i x flag next?) := by
  cases i with
  | mov | add | sub | mul | or | and | xor =>
    refine .onTwoRegs rfl ?_
    rintro d r rfl rfl
    exact .write (by simp [wellFormed]) rfl nofun
  | put =>
    refine .onReg id ?_
    rintro d rfl
    exact .write (by simp [wellFormed]) rfl nofun
  | div =>
    refine .onTwoRegs rfl ?_
    rintro d r rfl rfl
    split
    · exact .zeroDivisor ‹_›
    · refine .write (by simp [wellFormed]) rfl ?_
      rintro d' r' h
      obtain ⟨-, hr⟩ := Instr.div.inj h
      rwa [← regByte_inj hr]
  | out =>
    refine .onReg id ?_
    rintro r rfl
    exact .out r _
  | in_ =>
    refine .onReg id ?_
    rintro d rfl
    exact .in_ d _
  | cmp =>
    refine .onTwoRegs rfl ?_
    rintro a b rfl rfl
    exact .cmp a b _
  | jmp a => exact .jmp a
  | jeq u a =>
    simp only [effect]
    split
    · exact .jeqTaken u a
    · exact .jeqNotTaken u a
  | nop => exact .nop
  | hlt => exact .hlt

/-- Every execute phase leaves what one of its instruction's effects leaves. -/
theorem exec_yields {i : Instr} {s t : State} (h : exec i s = .next t) : ∃ e, Yields s.x i e ∧ t = e.apply s :=
  ⟨_, yields_effect i s.x _ _, eq_apply_of_exec h⟩

/-- An effect is one of the two faults, each exactly under its condition, or no fault. -/
theorem Yields.raises_or_completes {x : Vector Byte 8} {i : Instr} {e : Effect} (h : Yields x i e) :
    (wellFormed i = false ∧ ∃ b : Byte, 8 ≤ b.toNat ∧ e = .raise (.registerIndexOutOfRange b)) ∨
      (∃ d r : Fin 8, i = .div (regByte d) (regByte r) ∧ x[r] = 0 ∧ e = .raise .divideByZero) ∨
      (wellFormed i = true ∧ (∀ d r : Fin 8, i = .div (regByte d) (regByte r) → x[r] ≠ 0) ∧ ∀ f, e ≠ .raise f) := by
  cases h with
  | badIndex hw hb => exact .inl ⟨hw, _, hb, rfl⟩
  | zeroDivisor h0 => exact .inr (.inl ⟨_, _, rfl, h0, rfl⟩)
  | write hw hd h0 => exact .inr (.inr ⟨hw, h0, nofun⟩)
  | out | in_ | cmp => exact .inr (.inr ⟨by simp [wellFormed], nofun, nofun⟩)
  | jmp | jeqTaken | jeqNotTaken | nop | hlt => exact .inr (.inr ⟨rfl, nofun, nofun⟩)

/-! ## What an effect leaves unchanged -/

@[simp] theorem Effect.apply_mem (e : Effect) (s : State) : (e.apply s).mem = s.mem := by cases e <;> rfl

/-- Only CMP's effect writes the flag or the countdown. -/
theorem Effect.apply_flag {e : Effect} (h : ∀ equal, e ≠ .armFlag equal) (s : State) :
    (e.apply s).equalFlag = s.equalFlag ∧ (e.apply s).flagClearDelay = s.flagClearDelay := by
  cases e with
  | armFlag equal => exact absurd rfl (h equal)
  | nothing | setReg | takeInput | emit | jump | halt | raise => exact ⟨rfl, rfl⟩

/-- Only a fault writes the fault record. -/
theorem Effect.apply_record {e : Effect} (h : ∀ f, e ≠ .raise f) (s : State) :
    (e.apply s).faultCode = s.faultCode ∧ (e.apply s).faultInfo = s.faultInfo := by
  cases e with
  | raise f => exact absurd rfl (h f)
  | nothing | setReg | takeInput | emit | jump | armFlag | halt => exact ⟨rfl, rfl⟩

/-- No fault has the code of no fault (R151). -/
theorem RuntimeFault.code_ne_zero (f : RuntimeFault) : f.code ≠ 0 := by cases f <;> simp [RuntimeFault.code]

theorem Effect.apply_raise_faultCode (f : RuntimeFault) (s : State) : ((Effect.raise f).apply s).faultCode ≠ 0 :=
  f.code_ne_zero

/-- A register other than the one written keeps its byte (R10). -/
theorem getElem_set_of_ne (x : Vector Byte 8) {d j : Fin 8} (v : Byte) (h : j.val ≠ (regByte d).toNat) :
    (x.set d v)[j] = x[j] := by
  rw [regByte_toNat] at h
  exact Vector.getElem_set_ne _ _ h.symm

/-- An instruction that computes into a register writes that one or faults. -/
theorem Yields.of_dst {x : Vector Byte 8} {i : Instr} {e : Effect} {b : Byte} (h : Yields x i e)
    (hi : dst? i = some b) : (∃ (d : Fin 8) (v : Byte), b = regByte d ∧ e = .setReg d v) ∨ ∃ f, e = .raise f := by
  cases h with
  | badIndex | zeroDivisor => exact .inr ⟨_, rfl⟩
  | write _ hd => exact .inl ⟨_, _, Option.some.inj (hi.symm.trans hd), rfl⟩
  | out | in_ | cmp | jmp | jeqTaken | jeqNotTaken | nop | hlt => cases hi

/-- Settles O40: the effect of a register writer is one register write or a fault. -/
theorem registerWritersFrame : Obligations.RegisterWritersFrame := by
  intro mk hmk b1 b2 s t h
  have hdst : dst? (mk b1 b2) = some b1 := by
    simp only [List.mem_cons, List.not_mem_nil, or_false] at hmk
    rcases hmk with rfl | rfl | rfl | rfl | rfl | rfl | rfl | rfl | rfl <;> rfl
  obtain ⟨e, hy, rfl⟩ := exec_yields h
  obtain ⟨d, v, rfl, rfl⟩ | ⟨f, rfl⟩ := hy.of_dst hdst
  · exact ⟨fun j hj => getElem_set_of_ne s.x v hj, rfl, rfl, rfl, fun _ => rfl, rfl, rfl, .inl ⟨rfl, rfl, rfl⟩⟩
  · exact ⟨fun _ _ => rfl, rfl, rfl, rfl, fun _ => rfl, rfl, rfl, .inr ⟨rfl, rfl, f.code_ne_zero⟩⟩

/-- Settles O41: the effect of IN takes the head of the input into one register, or is a fault. -/
theorem inFrame : Obligations.InFrame := by
  intro b1 s t h
  obtain ⟨e, hy, rfl⟩ := exec_yields h
  cases hy with
  | badIndex =>
    exact ⟨fun _ _ => rfl, rfl, rfl, rfl, fun _ => rfl, rfl, .inr ⟨rfl, rfl, rfl, Effect.apply_raise_faultCode _ s⟩⟩
  | write _ hd => cases hd
  | in_ d v =>
    exact ⟨fun j hj => getElem_set_of_ne s.x v hj, rfl, rfl, rfl, fun _ => rfl, rfl, .inl ⟨rfl, rfl, rfl, rfl⟩⟩

/-- Settles O42: the effect of OUT is one byte more on the output, or a fault. -/
theorem outFrame : Obligations.OutFrame := by
  intro b1 s t h
  obtain ⟨e, hy, rfl⟩ := exec_yields h
  cases hy with
  | badIndex => exact ⟨rfl, rfl, rfl, rfl, fun _ => rfl, rfl, .inr ⟨rfl, rfl, Effect.apply_raise_faultCode _ s⟩⟩
  | write _ hd => cases hd
  | out r v => exact ⟨rfl, rfl, rfl, rfl, fun _ => rfl, rfl, .inl ⟨by simp, by simp, rfl, rfl, rfl⟩⟩

/-- Settles O43: the effect of CMP is the write of flag and countdown, or a fault. -/
theorem cmpFrame : Obligations.CmpFrame := by
  intro b1 b2 s t h
  obtain ⟨e, hy, rfl⟩ := exec_yields h
  cases hy with
  | badIndex => exact ⟨rfl, rfl, fun _ => rfl, rfl, rfl, .inr ⟨rfl, rfl, rfl, Effect.apply_raise_faultCode _ s⟩⟩
  | write _ hd => cases hd
  | cmp a b equal => exact ⟨rfl, rfl, fun _ => rfl, rfl, rfl, .inl ⟨rfl, rfl, rfl⟩⟩

/-- Settles O44: the effects of the four are a jump, nothing, and the halt, each of the instruction that may have it. -/
theorem jumpNopHltFrame : Obligations.JumpNopHltFrame := by
  intro u a i hi s t h
  simp only [List.mem_cons, List.not_mem_nil, or_false] at hi
  have hw : wellFormed i = true := by rcases hi with rfl | rfl | rfl | rfl <;> rfl
  have hd : dst? i = none := by rcases hi with rfl | rfl | rfl | rfl <;> rfl
  obtain ⟨e, hy, rfl⟩ := exec_yields h
  cases hy with
  | badIndex hw' => cases hw.symm.trans hw'
  | write _ hd' => cases hd.symm.trans hd'
  | zeroDivisor | out | in_ | cmp => simp at hi
  | jmp | jeqTaken | jeqNotTaken | nop | hlt => simp_all

/-- An effect that writes the flag is that of a CMP of two registers. -/
theorem Yields.armFlag_inv {x : Vector Byte 8} {i : Instr} {equal : Bool} (h : Yields x i (.armFlag equal)) :
    ∃ a b : Fin 8, i = .cmp (regByte a) (regByte b) := by
  cases h with
  | cmp a b => exact ⟨a, b, rfl⟩

/-- Settles O45: an effect that writes the flag or the countdown is that of a CMP. -/
theorem onlyCmpWritesTheFlag : Obligations.OnlyCmpWritesTheFlag := by
  intro i s t hi h
  obtain ⟨e, hy, rfl⟩ := exec_yields h
  refine Effect.apply_flag ?_ s
  rintro equal rfl
  obtain ⟨a, b, rfl⟩ := hy.armFlag_inv
  exact hi _ _ rfl

/-- Settles O37: the effect of CMP writes both, and no other effect writes the flag. -/
theorem cmpWritesFlagAndCountdown : Obligations.CmpWritesFlagAndCountdown := by
  refine ⟨runsAs3_of_encode fun _ _ => rfl, checksTwoIndices_of_effect fun _ _ _ => rfl, fun a b s => ?_,
    fun i s t h0 h h1 => ?_⟩
  · rw [exec_eq_effect, effectIn, effect_cmp_regByte]
    rfl
  · obtain ⟨e, hy, rfl⟩ := exec_yields h
    by_contra hcmp
    have hflag : ∀ equal, e ≠ .armFlag equal := by
      rintro equal rfl
      exact hcmp hy.armFlag_inv
    rw [(Effect.apply_flag hflag s).1, h0] at h1
    cases h1

/-- Settles O17: the three kinds of effect, told apart by the code they leave. -/
theorem whichInstructionRaisesWhichFault : Obligations.WhichInstructionRaisesWhichFault := by
  intro i s t h0 h
  obtain ⟨e, hy, rfl⟩ := exec_yields h
  obtain ⟨hw, b, -, rfl⟩ | ⟨d, r, rfl, hz, rfl⟩ | ⟨hw, hz, hne⟩ := hy.raises_or_completes
  · refine ⟨by simp [hw, RuntimeFault.code], ?_, by simp [RuntimeFault.code]⟩
    constructor
    · intro hcode
      cases hcode
    · rintro ⟨d, r, rfl, -⟩
      simp [wellFormed] at hw
  · refine ⟨by simp [wellFormed, RuntimeFault.code], ?_, by simp [RuntimeFault.code]⟩
    exact ⟨fun _ => ⟨d, r, rfl, hz⟩, fun _ => rfl⟩
  · obtain ⟨hcode, -⟩ := Effect.apply_record hne s
    rw [hcode, h0]
    refine ⟨by simp [hw], ?_, .inl rfl⟩
    constructor
    · intro h4
      cases h4
    · rintro ⟨d, r, hi, hr⟩
      exact absurd hr (hz d r hi)

end Sys2Proof.Machine

/-! PROOFS of 40_execution_cycle.md and 60_exceptions.md: everything a step can do, said once by cases, and what follows
for the faults, for halting and for runs. -/

namespace Sys2Proof.Machine

section
variable (s : State) (n : Nat)

@[simp] theorem State.enter_x : (s.enter n).x = s.x := s.expire_x
@[simp] theorem State.enter_halted : (s.enter n).halted = s.halted := s.expire_halted
@[simp] theorem State.enter_faultCode : (s.enter n).faultCode = s.faultCode := s.expire_faultCode
@[simp] theorem State.enter_faultInfo : (s.enter n).faultInfo = s.faultInfo := s.expire_faultInfo

end

/-! ## Everything a step can do -/

/-- What a step does after its expiry phase, from what it reads: where `pc` goes, and the effect. -/
def stepEffect (s : State) : PcWord × Effect :=
  match decode s.code with
  | .ok (i, _) => (s.pc + BitVec.ofNat 9 i.length, effectIn i s.expire)
  | .error (.illegalOpcode op) => (s.pc + 1, .raise (.illegalOpcode op))
  | .error .truncated => (s.endPc, .raise .pcOutOfBounds)

/-- A step of a running core is its expiry phase, a move of `pc` and an effect: the tie between `stepEffect` and the
model (R70). -/
theorem step_eq_effect {s : State} (hh : s.halted = false) :
    step s = .next ((stepEffect s).2.apply (s.expire.setPc (stepEffect s).1)) := by
  unfold stepEffect
  split
  case h_1 i rest hd =>
    rw [step_of_decode hh hd, exec_eq_effect]
    rfl
  case h_2 op hd =>
    obtain ⟨ho, rest, hc⟩ := decode_illegal_iff.1 hd
    rw [step_of_illegal hh hc ho]
    rfl
  case h_3 hd => exact step_of_truncated hh hd

/-- Settles O8: a halted core answers itself, a running one what its effect leaves; so does every execute phase. -/
theorem everyStepAnswersANextState : Obligations.EveryStepAnswersANextState := by
  refine ⟨fun s => ?_, fun i s => ⟨_, exec_eq_effect i s⟩⟩
  cases hh : s.halted with
  | true => exact ⟨s, step_of_halted hh⟩
  | false => exact ⟨_, step_eq_effect hh⟩

/-- The three kinds of step of a running core, by what the bytes at `pc` decode to. -/
theorem step_cases {s t : State} (hh : s.halted = false) (h : step s = .next t) :
    (decode s.code = .error .truncated ∧ t = (s.expire.setPc s.endPc).raise .pcOutOfBounds) ∨
      (∃ op rest, s.code = op :: rest ∧ Opcode.ofByte? op = none ∧ t = (s.enter 1).raise (.illegalOpcode op)) ∨
      (∃ i rest e, decode s.code = .ok (i, rest) ∧ Yields s.x i e ∧ t = e.apply (s.enter i.length)) := by
  rcases hd : decode s.code with (⟨op⟩ | _) | ⟨i, rest⟩
  · obtain ⟨ho, rest, hc⟩ := decode_illegal_iff.1 hd
    rw [step_of_illegal hh hc ho] at h
    exact .inr (.inl ⟨op, rest, hc, ho, (Host.Outcome.next.inj h).symm⟩)
  · rw [step_of_truncated hh hd] at h
    exact .inl ⟨rfl, (Host.Outcome.next.inj h).symm⟩
  · rw [step_of_decode hh hd] at h
    obtain ⟨e, hy, rfl⟩ := exec_yields h
    rw [State.enter_x] at hy
    exact .inr (.inr ⟨i, rest, e, rfl, hy, rfl⟩)

/-- Whatever a step does, only the expiry phase, a move of `pc` inside memory and one effect have changed the state. -/
theorem step_applies {s t : State} (hh : s.halted = false) (h : step s = .next t) :
    ∃ (n : PcWord) (e : Effect), (s.pc.toNat ≤ 256 → n.toNat ≤ 256) ∧ t = e.apply (s.expire.setPc n) := by
  obtain ⟨n, hn, rfl⟩ | ⟨n, op, hn, -, rfl⟩ | ⟨i, n, hn, -, he⟩ := step_leaves hh h
  · exact ⟨n, .raise .pcOutOfBounds, hn, rfl⟩
  · exact ⟨n, .raise (.illegalOpcode op), fun _ => hn, rfl⟩
  · exact ⟨n, _, fun _ => hn, eq_apply_of_exec he⟩

/-! ## Invariants -/

/-- A step writes no memory, not even its list of cells. -/
theorem step_mem {s t : State} (h : step s = .next t) : t.mem = s.mem := by
  cases hh : s.halted with
  | true => rw [step_eq_of_halted hh h]
  | false =>
    obtain ⟨n, e, -, rfl⟩ := step_applies hh h
    simp

/-- The expiry phase keeps the invariants: it clears the flag when the countdown reaches 0 (R71). -/
theorem State.Inv.expire {s : State} (h : s.Inv) : s.expire.Inv := by
  obtain ⟨hpc, hdelay, hflag, hfault, hmem⟩ := h
  refine ⟨by simpa using hpc, ?_, ?_, by simpa using hfault, by simpa using hmem⟩
  · rw [State.expire_flagClearDelay]
    split <;> bv_omega
  · rw [State.expire_equalFlag, State.expire_flagClearDelay]
    split
    · nofun
    · intro hf
      have := hflag hf
      split <;> bv_omega

/-- A move of `pc` to an address or to 256 keeps the invariants. -/
theorem State.Inv.setPc {s : State} (h : s.Inv) {n : PcWord} (hn : n.toNat ≤ 256) : (s.setPc n).Inv :=
  ⟨hn, h.2⟩

/-- Every effect keeps the invariants. -/
theorem State.Inv.apply {s : State} (h : s.Inv) (e : Effect) : (e.apply s).Inv := by
  cases e with
  | nothing | setReg | takeInput | emit => exact h
  | jump a => exact h.setPc (by rw [jumpTarget_toNat]; omega)
  | armFlag equal =>
    obtain ⟨hpc, -, -, hfault, hmem⟩ := h
    have hle : Config.cmpDelay.toNat ≤ 2 := by decide
    have hpos : 1 ≤ Config.cmpDelay.toNat := by decide
    exact ⟨hpc, hle, fun _ => hpos, hfault, hmem⟩
  | halt | raise =>
    obtain ⟨hpc, hdelay, hflag, -, hmem⟩ := h
    exact ⟨hpc, hdelay, hflag, fun _ => rfl, hmem⟩

/-- Settles O20: the expiry phase, the move of `pc` and the effect each keep the invariants. -/
theorem stepKeepsInvariant : Obligations.StepKeepsInvariant := by
  intro s t hinv h
  refine ⟨?_, fun a => by rw [step_mem h]⟩
  cases hh : s.halted with
  | true => rwa [step_eq_of_halted hh h]
  | false =>
    obtain ⟨n, e, hn, rfl⟩ := step_applies hh h
    exact (hinv.expire.setPc (hn hinv.1)).apply e

/-- Settles O19: every field of the reset state is a literal. -/
theorem invariantHoldsAtReset : Obligations.InvariantHoldsAtReset :=
  ⟨⟨by decide, by decide, nofun, fun h => absurd rfl h, reset_mem_wf⟩, .inl ⟨rfl, rfl⟩⟩

/-- Settles O21: a step keeps the record or writes that of one of the four faults, each with a byte that raises it. -/
theorem stepKeepsFaultRecordLegal : Obligations.StepKeepsFaultRecordLegal := by
  intro s t hlegal h
  cases hh : s.halted with
  | true => rwa [step_eq_of_halted hh h]
  | false =>
    obtain ⟨-, rfl⟩ | ⟨op, rest, -, ho, rfl⟩ | ⟨i, rest, e, -, hy, rfl⟩ := step_cases hh h
    · exact .inr (.inr (.inr (.inl ⟨rfl, rfl⟩)))
    · exact .inr (.inl ⟨rfl, ho⟩)
    · obtain ⟨-, b, hb, rfl⟩ | ⟨d, r, -, -, rfl⟩ | ⟨-, -, hne⟩ := hy.raises_or_completes
      · exact .inr (.inr (.inl ⟨rfl, hb⟩))
      · exact .inr (.inr (.inr (.inr ⟨rfl, rfl⟩)))
      · obtain ⟨hcode, hinfo⟩ := Effect.apply_record hne (s.enter i.length)
        rwa [State.FaultRecordLegal, hcode, hinfo, State.enter_faultCode, State.enter_faultInfo]

/-! ## Runs -/

/-- A run of one step more is a step and the run from where it leads. -/
theorem exists_step_of_run_succ {k : Nat} {s t : State} (h : run (k + 1) s = .next t) :
    ∃ u, step s = .next u ∧ run k u = .next t := by
  obtain ⟨u, hu⟩ := everyStepAnswersANextState.1 s
  exact ⟨u, hu, by rwa [run_succ_of_step k hu] at h⟩

/-- Settles O18: each step of a halted core answers the same halted core. -/
theorem haltedIsTerminal : Obligations.HaltedIsTerminal := by
  intro s k hh
  induction k with
  | zero => exact run_zero s
  | succ k ih => rw [run_succ_of_step k (step_of_halted hh), ih]

/-- Settles O22: no effect writes memory, so no step does, and no run. -/
theorem memoryIsNeverWritten : Obligations.MemoryIsNeverWritten := by
  refine ⟨fun s t => step_mem, fun k => ?_⟩
  induction k with
  | zero =>
    rintro s t ⟨⟩ a
    rfl
  | succ k ih =>
    intro s t h a
    obtain ⟨u, hu, ht⟩ := exists_step_of_run_succ h
    rw [ih u t ht a, step_mem hu]

/-- Under the invariants a recorded fault is never lost: it has halted the core (R21 (d), R18). -/
theorem noFault_of_step {s t : State} (hinv : s.Inv) (h : step s = .next t) (ht : t.NoFault) : s.NoFault := by
  obtain ⟨-, -, -, hfault, -⟩ := hinv
  by_contra hs
  exact hs (step_eq_of_halted (hfault hs) h ▸ ht)

/-- A run that ends without a recorded fault began without one. -/
theorem noFault_of_run {k : Nat} {s t : State} (hinv : s.Inv) (h : run k s = .next t) (ht : t.NoFault) :
    s.NoFault := by
  induction k generalizing s with
  | zero =>
    cases h
    exact ht
  | succ k ih =>
    obtain ⟨u, hu, hrun⟩ := exists_step_of_run_succ h
    exact noFault_of_step hinv hu (ih (stepKeepsInvariant s u hinv hu).1 hrun)

/-- Every state of a run that ends without a recorded fault is without one. -/
theorem safeRun_of_run {k : Nat} {s t : State} (hinv : s.Inv) (h : run k s = .next t) (ht : t.NoFault) :
    SafeRun k s := by
  intro j hj
  induction j generalizing k s with
  | zero => exact ⟨s, run_zero s, noFault_of_run hinv h ht⟩
  | succ j ih =>
    obtain ⟨k, rfl⟩ : ∃ k', k = k' + 1 := ⟨k - 1, by omega⟩
    obtain ⟨u, hu, hrun⟩ := exists_step_of_run_succ h
    rw [run_succ_of_step j hu]
    exact ih (stepKeepsInvariant s u hinv hu).1 hrun (by omega)

/-- Settles O23: the last record is one of those looked at, and without a fault there none was recorded before. -/
theorem finalFaultRecordTellsTheWholeRun : Obligations.FinalFaultRecordTellsTheWholeRun := by
  intro s k hinv
  constructor
  · exact fun h => h k le_rfl
  · rintro ⟨t, hrun, ht⟩
    exact safeRun_of_run hinv hrun ht

/-! ## Faults and halting -/

/-- An effect that leaves a fault recorded where none was is that fault. -/
theorem Effect.eq_raise_of_faultCode {e : Effect} {s : State} (h0 : s.faultCode = 0) (h : (e.apply s).faultCode ≠ 0) :
    ∃ f, e = .raise f := by
  by_contra hne
  rw [(apply_record (fun f hf => hne ⟨f, hf⟩) s).1] at h
  exact h h0

/-- Settles O14: the effect of a step that records a fault is the fault, which writes the record and `halted` alone. -/
theorem faultingStepIsPrecise : Obligations.FaultingStepIsPrecise := by
  intro s t hh h0 h hfault
  obtain ⟨n, e, -, rfl⟩ := step_applies hh h
  obtain ⟨f, rfl⟩ := Effect.eq_raise_of_faultCode (by simpa using h0) hfault
  simp

/-- The length of an instruction that uses a register operand (R51). -/
theorem length_of_not_wellFormed {i : Instr} (h : wellFormed i = false) :
    i.length = if i.opcode.byte = 0xD0 ∨ i.opcode.byte = 0xD1 then 2 else 3 := by
  cases i with
  | jmp | jeq | nop | hlt => cases h
  | mov | put | add | sub | mul | div | or | and | xor | out | in_ | cmp => rfl

/-- What decodes begins with the opcode byte of the instruction. -/
theorem code_eq_of_decode {bs rest : List Byte} {i : Instr} (h : decode bs = .ok (i, rest)) :
    ∃ operands, bs = i.opcode.byte :: operands := by
  obtain ⟨hhead, -⟩ := encodingShape i
  obtain ⟨operands, he⟩ := List.head?_eq_some_iff.1 hhead
  exact ⟨operands ++ rest, by rw [eq_encode_of_decode h, he, List.cons_append]⟩

/-- Settles O15: a fetch fault leaves `pc` where the fetches came to, an operand fault past the instruction. -/
theorem pcAfterEachFault : Obligations.PcAfterEachFault := by
  intro s t hh h0 hpc h
  obtain ⟨-, rfl⟩ | ⟨op, rest, hc, -, rfl⟩ | ⟨i, rest, e, hd, hy, rfl⟩ := step_cases hh h
  · simp [RuntimeFault.code, State.endPc_of_le hpc]
  · have hlt := (fetch_of_code hc).2.2
    simpa [RuntimeFault.code, State.enter] using pc_succ_toNat hlt
  · have hnext := enter_pc_toNat hd
    obtain ⟨hw, b, -, rfl⟩ | ⟨d, r, rfl, -, rfl⟩ | ⟨-, -, hne⟩ := hy.raises_or_completes
    · obtain ⟨operands, hc⟩ := code_eq_of_decode hd
      have hlen := length_of_not_wellFormed hw
      exact ⟨nofun, nofun, fun _ => ⟨_, _, hc, by rw [← hlen]; exact hnext⟩, nofun⟩
    · exact ⟨nofun, nofun, nofun, fun _ => hnext⟩
    · have hcode : (e.apply (s.enter i.length)).faultCode = 0 := by
        rw [(Effect.apply_record hne _).1, State.enter_faultCode, h0]
      simp [hcode]

/-- Settles O16: entering DIV fetches its operands first, and its effect checks the indices before the divisor. -/
theorem divFaultsInOrder : Obligations.DivFaultsInOrder := by
  intro s hh
  obtain ⟨hentry, hindex, hresult⟩ := divFloorsOrFaults
  refine ⟨fun b1 hc => ?_, fun b1 b2 rest hc h1 => ?_, fun d b2 rest hc h2 => ?_, fun d r rest hc h0 => ?_⟩
  · exact (hentry s b1 0 [] hh).2 hc
  · rw [(hentry s b1 b2 rest hh).1 hc]
    exact (hindex b1 b2 _).1 h1
  · rw [(hentry s _ b2 rest hh).1 hc]
    exact (hindex _ b2 _).2 (by simp) h2
  · rw [(hentry s _ _ rest hh).1 hc]
    exact (hresult d r _).1 ((congrArg (·[r]) (s.enter_x 3)).trans h0)

/-- An effect leaves the core halted when it was, by the halt of HLT, or by a fault. -/
theorem Effect.apply_halted_iff (e : Effect) (s : State) :
    (e.apply s).halted = true ↔ s.halted = true ∨ e = .halt ∨ ∃ f, e = .raise f := by
  cases e <;> simp

/-- The halt is the effect of HLT and of no other instruction. -/
theorem Yields.eq_halt_iff {x : Vector Byte 8} {i : Instr} {e : Effect} (h : Yields x i e) : e = .halt ↔ i = .hlt := by
  cases h with
  | badIndex hw => exact ⟨nofun, by rintro rfl; cases hw⟩
  | write _ hd => exact ⟨nofun, by rintro rfl; cases hd⟩
  | zeroDivisor | out | in_ | cmp | jmp | jeqTaken | jeqNotTaken | nop => exact ⟨nofun, nofun⟩
  | hlt => exact ⟨fun _ => rfl, fun _ => rfl⟩

/-- The byte of HLT stands at the head of what decodes exactly when HLT is decoded. -/
theorem hlt_at_head_iff {bs rest : List Byte} {i : Instr} (h : decode bs = .ok (i, rest)) :
    (∃ rest', bs = 0xFF :: rest') ↔ i = .hlt := by
  constructor
  · rintro ⟨rest', rfl⟩
    have hdec : decode (encode .hlt ++ rest') = .ok (i, rest) := h
    rw [decode_encode_append] at hdec
    cases hdec
    rfl
  · rintro rfl
    exact code_eq_of_decode h

/-- Settles O47: a fetch fault is a fault and no HLT; of the effects, the halt of HLT and the faults halt. -/
theorem haltsOnlyByHltOrFault : Obligations.HaltsOnlyByHltOrFault := by
  intro s t hh h0 h
  obtain ⟨hd, rfl⟩ | ⟨op, rest, hc, ho, rfl⟩ | ⟨i, rest, e, hd, hy, rfl⟩ := step_cases hh h
  · have hno : ¬ ∃ rest, s.code = 0xFF :: rest := by
      rintro ⟨rest, hc⟩
      rw [hc] at hd
      cases hd
    exact ⟨iff_of_true rfl (.inr (by simp [RuntimeFault.code])), fun hc => absurd hc hno⟩
  · have hno : ¬ ∃ rest, s.code = 0xFF :: rest := by
      rintro ⟨rest', hc'⟩
      obtain ⟨rfl, -⟩ := List.cons.inj (hc.symm.trans hc')
      cases ho
    exact ⟨iff_of_true rfl (.inr (by simp [RuntimeFault.code])), fun hc => absurd hc hno⟩
  · have hcode : (s.enter i.length).faultCode = 0 := (s.enter_faultCode _).trans h0
    have hfault : (e.apply (s.enter i.length)).faultCode ≠ 0 ↔ ∃ f, e = .raise f := by
      constructor
      · exact Effect.eq_raise_of_faultCode hcode
      · rintro ⟨f, rfl⟩
        exact Effect.apply_raise_faultCode f _
    rw [Effect.apply_halted_iff, hfault, hlt_at_head_iff hd, hy.eq_halt_iff]
    refine ⟨by simp [hh], ?_⟩
    rintro rfl
    obtain rfl := hy.eq_halt_iff.2 rfl
    exact ⟨hcode, State.expire_faultInfo s⟩

end Sys2Proof.Machine

/-! PROOFS of 10_state.md, 44_io.md and 45_control.md section 3: what a step cannot see, and how long a compare is seen.
A step reads neither the output stream, nor the fault record, nor any input after the next byte: its effect is computed
from other fields and commutes with a change of these (R19, R121, R122). -/

namespace Sys2Proof.Machine

/-- A step has the same effect in two states that agree in what it reads: the bytes at `pc`, the registers, the flag
after the expiry phase and the next input byte. -/
theorem stepEffect_congr {s u : State} (hpc : u.pc = s.pc) (hmem : u.mem = s.mem) (hx : u.x = s.x)
    (hflag : u.expire.equalFlag = s.expire.equalFlag) (hin : u.input.head? = s.input.head?) :
    stepEffect u = stepEffect s := by
  simp [stepEffect, effectIn, State.code, State.endPc, hpc, hmem, hx, hflag, hin]

/-- A state `u` that agrees with `s` in what a step reads takes the step of `s`, from what its own expiry phase left. -/
theorem step_of_agree {s u v : State} (hh : u.halted = false) (hexp : u.expire = v) (hpc : u.pc = s.pc)
    (hmem : u.mem = s.mem) (hx : u.x = s.x) (hflag : v.equalFlag = s.expire.equalFlag)
    (hin : u.input.head? = s.input.head?) :
    step u = .next ((stepEffect s).2.apply (v.setPc (stepEffect s).1)) := by
  subst hexp
  rw [step_eq_effect hh, stepEffect_congr hpc hmem hx hflag hin]

/-- The expiry phase as one update: what it writes depends on the flag and the countdown alone (R71). -/
theorem State.expire_eq (s : State) :
    s.expire = { s with
      equalFlag := if s.flagClearDelay = 1 then false else s.equalFlag
      flagClearDelay := if s.flagClearDelay = 0 then 0 else s.flagClearDelay - 1 } := by
  rw [← expire_equalFlag, ← expire_flagClearDelay]
  unfold State.expire
  split <;> [rfl; split <;> rfl]

/-! ## The output stream -/

/-- The bytes an effect appends to the output stream. -/
def Effect.emitted : Effect → List Byte
  | .emit v => [v]
  | _ => []

/-- The expiry phase commutes with a change of the output stream. -/
theorem State.expire_withOutput (s : State) (w : List Byte) :
    { s with output := w }.expire = { s.expire with output := w } := by
  rw [expire_eq, expire_eq s]

/-- An effect appends its bytes to whatever the output stream held and reads nothing of it. -/
theorem Effect.apply_withOutput (e : Effect) (s : State) (w : List Byte) :
    e.apply { s with output := w } = { e.apply s with output := w ++ e.emitted } := by
  cases e with
  | emit v => rfl
  | nothing | setReg | takeInput | jump | armFlag | halt | raise =>
    simp only [emitted, List.append_nil]
    rfl

theorem Effect.apply_output (e : Effect) (s : State) : (e.apply s).output = s.output ++ e.emitted := by
  cases e <;> simp [emitted]

theorem Effect.length_emitted_le (e : Effect) : e.emitted.length ≤ 1 := by
  cases e <;> simp [emitted]

/-- Settles O48: the effect of a step does not depend on the output stream, and appends to it what it emits. -/
theorem outputOnlyGrowsAndIsNotReadBack : Obligations.OutputOnlyGrowsAndIsNotReadBack := by
  intro s
  rcases Bool.eq_false_or_eq_true s.halted with hh | hh
  · refine ⟨s, [], by simp, by simp, fun w => ?_⟩
    rw [List.append_nil]
    exact step_of_halted hh
  · refine ⟨(stepEffect s).2.apply (s.expire.setPc (stepEffect s).1), (stepEffect s).2.emitted,
      Effect.length_emitted_le _, by simp [Effect.apply_output], fun w => ?_⟩
    rw [step_of_agree (s := s) (u := { s with output := w }) hh (s.expire_withOutput w) rfl rfl rfl rfl rfl]
    exact congrArg _ (Effect.apply_withOutput _ (s.expire.setPc (stepEffect s).1) w)

/-! ## The fault record -/

theorem State.expire_withRecord (s : State) (c : BitVec 3) (f : Byte) :
    { s with faultCode := c, faultInfo := f }.expire = { s.expire with faultCode := c, faultInfo := f } := by
  rw [expire_eq, expire_eq s]

/-- An effect reads nothing of the fault record: it keeps any record, or writes the same one over it. -/
theorem Effect.apply_withRecord (e : Effect) (s : State) (c : BitVec 3) (f : Byte) :
    e.apply { s with faultCode := c, faultInfo := f } = { e.apply s with faultCode := c, faultInfo := f } ∨
      e.apply { s with faultCode := c, faultInfo := f } = e.apply s := by
  cases e with
  | raise g => exact .inr rfl
  | nothing | setReg | takeInput | emit | jump | armFlag | halt => exact .inl rfl

/-- Settles O50: the effect of a step does not depend on the fault record, and keeps it or writes it anew. -/
theorem faultRecordIsInvisibleToPrograms : Obligations.FaultRecordIsInvisibleToPrograms := by
  intro s c f
  rcases Bool.eq_false_or_eq_true s.halted with hh | hh
  · exact ⟨s, { s with faultCode := c, faultInfo := f }, step_of_halted hh, step_of_halted hh, rfl, .inl ⟨rfl, rfl⟩⟩
  · refine ⟨_, _, step_eq_effect hh, step_of_agree (s := s) hh (s.expire_withRecord c f) rfl rfl rfl rfl rfl, ?_⟩
    obtain h | h := Effect.apply_withRecord (stepEffect s).2 (s.expire.setPc (stepEffect s).1) c f
    · exact h ▸ ⟨rfl, .inl ⟨rfl, rfl⟩⟩
    · exact h ▸ ⟨rfl, .inr ⟨rfl, rfl⟩⟩

/-! ## The input stream -/

theorem State.expire_withInput (s : State) (l : List Byte) :
    { s with input := l }.expire = { s.expire with input := l } := by
  rw [expire_eq, expire_eq s]

/-- With an input byte left, an effect takes it or leaves the stream, whatever bytes stand after it. -/
theorem Effect.apply_withInput (e : Effect) {s : State} {v : Byte} {w : List Byte} (hin : s.input = v :: w)
    (w' : List Byte) :
    ∃ l, (((e.apply s).input = w ∧ l = w') ∨ ((e.apply s).input = v :: w ∧ l = v :: w')) ∧
      e.apply { s with input := v :: w' } = { e.apply s with input := l } := by
  cases e with
  | takeInput d b => exact ⟨w', .inl ⟨congrArg List.tail hin, rfl⟩, rfl⟩
  | nothing | setReg | emit | jump | armFlag | halt | raise => exact ⟨v :: w', .inr ⟨hin, rfl⟩, rfl⟩

/-- With an input byte left, a step takes it or leaves the stream, whatever bytes stand after it. -/
theorem step_withInput {s t : State} {v : Byte} {w : List Byte} (hin : s.input = v :: w) (h : step s = .next t)
    (w' : List Byte) :
    ∃ l, ((t.input = w ∧ l = w') ∨ (t.input = v :: w ∧ l = v :: w')) ∧
      step { s with input := v :: w' } = .next { t with input := l } := by
  rcases Bool.eq_false_or_eq_true s.halted with hh | hh
  · obtain rfl := step_eq_of_halted hh h
    exact ⟨v :: w', .inr ⟨hin, rfl⟩, step_of_halted hh⟩
  · rw [step_eq_effect hh] at h
    obtain rfl := Host.Outcome.next.inj h
    have hexp : (s.expire.setPc (stepEffect s).1).input = v :: w := s.expire_input.trans hin
    obtain ⟨l, hl, he⟩ := Effect.apply_withInput (stepEffect s).2 hexp w'
    refine ⟨l, hl, ?_⟩
    rw [step_of_agree (s := s) (u := { s with input := v :: w' }) hh (s.expire_withInput (v :: w')) rfl rfl rfl rfl
      (by rw [hin]; rfl), ← he]
    rfl

/-- Only the effect of IN changes the input stream, which then loses its first byte if it has one. -/
theorem Yields.apply_input {x : Vector Byte 8} {i : Instr} {e : Effect} (h : Yields x i e) (s : State) :
    (e.apply s).input = s.input ∨ (e.apply s).input = s.input.tail ∧ i.opcode = .in_ := by
  cases h with
  | in_ => exact .inr ⟨rfl, rfl⟩
  | badIndex | zeroDivisor | write | out | cmp | jmp | jeqTaken | jeqNotTaken | nop | hlt => exact .inl rfl

/-- A step takes at most the first byte of the input, and only when the opcode byte is that of IN. -/
theorem step_input {s t : State} (h : step s = .next t) :
    t.input = s.input ∨ (∃ v, s.input = v :: t.input) ∧ ∃ rest, s.code = 0xD1 :: rest := by
  cases hh : s.halted with
  | true => exact .inl (by rw [step_eq_of_halted hh h])
  | false =>
    obtain ⟨-, rfl⟩ | ⟨op, rest, -, -, rfl⟩ | ⟨i, rest, e, hd, hy, rfl⟩ := step_cases hh h
    · exact .inl s.expire_input
    · exact .inl s.expire_input
    · have hentry : (s.enter i.length).input = s.input := s.expire_input
      obtain hin | ⟨hin, hi⟩ := hy.apply_input (s.enter i.length) <;> rw [hentry] at hin
      · exact .inl hin
      · obtain ⟨operands, hc⟩ := code_eq_of_decode hd
        cases hs : s.input with
        | nil => exact .inl (by rw [hin, hs, List.tail_nil])
        | cons v w => exact .inr ⟨⟨v, by rw [hin, hs, List.tail_cons]⟩, operands, by rw [hc, hi]; rfl⟩

/-- Settles O49: only the effect of IN takes input, and no effect depends on the bytes after the next one. -/
theorem inputTakenInOrderOnlyByIn : Obligations.InputTakenInOrderOnlyByIn :=
  ⟨fun _ _ => step_input, fun _ _ _ _ w' h => step_withInput rfl h w'⟩

/-! ## The window of a compare -/

/-- A step of a running core that is not of a CMP leaves the flag and the countdown to its expiry phase (R16, R17). -/
theorem step_flag_of_not_cmp {s t : State} (hh : s.halted = false) (hc : s.code.head? ≠ some 0xE2)
    (h : step s = .next t) : t.equalFlag = s.expire.equalFlag ∧ t.flagClearDelay = s.expire.flagClearDelay := by
  obtain ⟨n, -, rfl⟩ | ⟨n, op, -, -, rfl⟩ | ⟨i, n, -, hi, he⟩ := step_leaves hh h
  · exact ⟨rfl, rfl⟩
  · exact ⟨rfl, rfl⟩
  · have hcmp : ∀ b1 b2 : Byte, i ≠ .cmp b1 b2 := by
      rintro b1 b2 rfl
      exact hc hi
    exact onlyCmpWritesTheFlag i (s.expire.setPc n) t hcmp he

/-- A JEQ goes by the flag its own expiry phase left, whatever its unused byte (R132). -/
theorem step_jeq {s : State} {u a : Byte} {rest : List Byte} (hh : s.halted = false)
    (hc : s.code = 0xE1 :: u :: a :: rest) :
    step s = .next (s.expire.setPc (if s.expire.equalFlag then jumpTarget a else s.pc + 3)) := by
  rw [(jeqJumpsWhenEqual.1 s u a rest hh).1 hc, exec_eq_effect]
  rcases Bool.eq_false_or_eq_true s.expire.equalFlag with hf | hf
  all_goals
    rw [effectIn, State.enter_equalFlag, hf]
    rfl

/-- A CMP of two registers arms the flag past its three bytes and changes nothing else after the expiry phase (R133). -/
theorem step_cmp {s : State} {a b : Fin 8} {rest : List Byte} (hh : s.halted = false)
    (hc : s.code = 0xE2 :: regByte a :: regByte b :: rest) :
    step s = .next ((s.enter 3).armFlag (s.x[a] == s.x[b])) := by
  rw [(cmpWritesFlagAndCountdown.1 s _ _ rest hh).1 hc, exec_eq_effect, effectIn, effect_cmp_regByte, State.enter_x]
  rfl

/-- Three bytes left to fetch end inside memory, so `pc` moves past them without wrapping (R72). -/
theorem pc_add_three_toNat {s : State} {b0 b1 b2 : Byte} {rest : List Byte} (hc : s.code = b0 :: b1 :: b2 :: rest) :
    (s.pc + 3).toNat = s.pc.toNat + 3 := by
  have hlen := s.code_length
  simp only [hc, List.length_cons] at hlen
  bv_omega

/-- With the countdown at 1 the expiry phase clears the flag (R71). -/
theorem expire_of_delay_one {s : State} (h : s.flagClearDelay = 1) :
    s.expire = { s with equalFlag := false, flagClearDelay := 0 } := by
  simp [State.expire, h]

/-- With the countdown at 2 the expiry phase keeps the flag (R71). -/
theorem expire_of_delay_two {s : State} (h : s.flagClearDelay = 2) : s.expire = { s with flagClearDelay := 1 } := by
  simp [State.expire, h]

/-- A clear flag stays clear through a step that is not of a CMP. -/
theorem step_keeps_flag_clear {s t : State} (hflag : s.equalFlag = false) (hc : s.code.head? ≠ some 0xE2)
    (h : step s = .next t) : t.equalFlag = false := by
  cases hh : s.halted with
  | true => rwa [step_eq_of_halted hh h]
  | false =>
    rw [(step_flag_of_not_cmp hh hc h).1, State.expire_equalFlag, hflag, ite_self]

/-- Settles O51: the CMP leaves countdown 2, the next step, if not a CMP, 1 with the flag kept, and the expiry phase of
the step after that clears the flag. -/
theorem compareResultLastsOneInstruction : Obligations.CompareResultLastsOneInstruction := by
  refine ⟨fun s a b rest hh hc => ?_, fun s t => step_keeps_flag_clear⟩
  refine ⟨_, step_cmp hh hc, by simpa using hh, rfl, rfl, by simp, pc_add_three_toNat hc, ?_, ?_⟩
  · intro u t rest1 hc1
    refine ⟨_, step_jeq (by simpa using hh) hc1, ?_⟩
    rw [expire_of_delay_two rfl]
    refine ⟨?_, rfl, rfl⟩
    show (if (s.x[a] == s.x[b]) = true then jumpTarget t else _).toNat = _
    by_cases heq : s.x[a] = s.x[b]
    · rw [if_pos heq, if_pos (beq_iff_eq.2 heq), jumpTarget_toNat]
    · rw [if_neg heq, if_neg (mt beq_iff_eq.1 heq)]
      exact pc_add_three_toNat hc1
  · intro s2 h2 hc1 hh2
    have hdelay : s2.flagClearDelay = 1 := by
      rw [(step_flag_of_not_cmp (by simpa using hh) hc1 h2).2, expire_of_delay_two rfl]
    have hexp := expire_of_delay_one hdelay
    refine ⟨by rw [hexp], fun u t rest2 hc2 => ?_⟩
    rw [step_jeq hh2 hc2, hexp]
    rfl

end Sys2Proof.Machine

/-! PROOFS of 30_encoding.md section 5. A register token and a literal token read back as the byte they were written
for, so the assembler, by the format of the mnemonic, puts the encoding together (R60 to R63). -/

namespace Sys2Proof.Machine

/-- A register number's token reads back as its byte (R61). -/
theorem registerToken?_registerToken {b : Byte} (h : regByteOk b = true) :
    registerToken? (registerToken b) = some b := by
  obtain ⟨i, rfl⟩ := exists_regByte_of_lt (of_decide_eq_true h)
  fin_cases i <;> decide

/-- A decimal digit has its value (R62). -/
theorem digit?_of_isDigit {c : Char} (h : c.isDigit = true) : digit? c = some (c.toNat - '0'.toNat) := by
  obtain ⟨hlo, hhi⟩ : 48 ≤ c.val ∧ c.val ≤ 57 := by simpa [Char.isDigit] using h
  exact if_pos ⟨hlo, hhi⟩

/-- The assembler's reading of decimal digits is the library's (R62). -/
theorem decimal?_eq_ofDigitChars {cs : List Char} (h : ∀ c ∈ cs, c.isDigit = true) (acc : Nat) :
    decimal? acc cs = some (Nat.ofDigitChars 10 cs acc) := by
  induction cs generalizing acc with
  | nil => rw [Nat.ofDigitChars_nil, decimal?]
  | cons c cs ih =>
    rw [List.forall_mem_cons] at h
    obtain ⟨hc, hcs⟩ := h
    rw [Nat.ofDigitChars_cons, Nat.mul_comm 10 acc, ← ih hcs]
    simp only [decimal?, digit?_of_isDigit hc]

/-- A byte's decimal digits read back as its value. -/
theorem decimal?_literalToken (b : Byte) : decimal? 0 (literalToken b) = some b.toNat := by
  have hdigits : ∀ c ∈ literalToken b, c.isDigit = true := fun _ =>
    Nat.isDigit_of_mem_toDigits (by decide) (by decide)
  rw [decimal?_eq_ofDigitChars hdigits, literalToken, Nat.ofDigitChars_ten_toDigits]

/-- A byte's literal token reads back as the byte (R62). -/
@[simp] theorem literalToken?_literalToken (b : Byte) : literalToken? (literalToken b) = some b := by
  have hvalue := decimal?_literalToken b
  have hne : literalToken b ≠ [] := Nat.toDigits_ne_nil
  unfold literalToken?
  split
  · exact absurd ‹_› hne
  · rename_i heq _
    obtain rfl : b.toNat = _ := Option.some.inj (hvalue.symm.trans heq)
    simp [b.isLt]
  · rename_i heq _
    cases hvalue.symm.trans heq

/-- Settles O5: by the format of the mnemonic each token reads back as its operand byte. -/
theorem assemblyLineGivesEncoding : Obligations.AssemblyLineGivesEncoding := by
  intro i h
  rw [assembleTokens, opcodeOfMnemonic?_mnemonic]
  cases i with
  | mov d s | add d s | sub d s | mul d s | div d s | or d s | and d s | xor d s | cmp d s =>
    obtain ⟨hd, hs⟩ := Bool.and_eq_true_iff.1 h
    simp [Instr.opcode, Opcode.format, Opcode.byte, operandTokens, encode, registerToken?_registerToken, hd, hs]
  | put d v | out d | in_ d | jeq d v =>
    simp [Instr.opcode, Opcode.format, Opcode.byte, operandTokens, encode, registerToken?_registerToken h]
  | jmp a => simp [Instr.opcode, Opcode.format, Opcode.byte, operandTokens, encode]
  | nop | hlt => rfl

end Sys2Proof.Machine

/-! PROOFS of 20_memory.md, 70_reset_and_hazards.md and 60_exceptions.md section 4: the loaded image, the launch
sequence and the host's rules; with them the tables of single operations that need no proof but their definitions. -/

namespace Sys2Proof.Machine

/-! ## Single operations -/

/-- Settles O9: the three values of the countdown select the three branches of the expiry phase. -/
theorem expiryPhaseCountsDownAndClears : Obligations.ExpiryPhaseCountsDownAndClears :=
  fun _ => ⟨fun h => if_pos h, expire_of_delay_one, expire_of_delay_two⟩

/-- Settles O11: the index is the value of the whole byte, when that is below 8. -/
theorem registerIndexIsTheWholeByte : Obligations.RegisterIndexIsTheWholeByte := by
  intro b
  rcases Nat.lt_or_ge b.toNat 8 with h | h
  · rw [regIdx?_of_lt h]
    exact ⟨fun i => by simp [Fin.ext_iff], by simpa using h⟩
  · rw [regIdx?_of_ge h]
    exact ⟨fun i => ⟨nofun, fun hi => by omega⟩, iff_of_true rfl h⟩

/-- Settles O13: the table of codes and information bytes is the definition of both. -/
theorem faultCodesAndInformation : Obligations.FaultCodesAndInformation :=
  fun _ => ⟨rfl, rfl, rfl, rfl, rfl, rfl, rfl, rfl⟩

/-- Settles O52: every field of the reset state is a literal, and an empty memory reads the fill. -/
theorem resetValues : Obligations.ResetValues :=
  ⟨fun _ => Vector.getElem_replicate _, rfl, rfl, rfl, rfl, rfl, rfl, fun _ => rfl, rfl, rfl⟩

/-- Settles O53: the reset action takes every field but memory and streams from the reset state. -/
theorem hostResetKeepsMemoryAndStreams : Obligations.HostResetKeepsMemoryAndStreams :=
  fun _ => ⟨_, rfl, rfl, rfl⟩

/-! ## The loaded image -/

/-- The memory made from bytes reads as those bytes from its first address on, and as the fill after them (R37). -/
theorem Memory.lookup_ofBytesFrom {bs : List Byte} {a : Nat} (h : a + bs.length ≤ 256) (k : Nat) :
    (Memory.ofBytesFrom a bs).lookup (a + k) = (bs[k]?).getD Config.memFill := by
  induction bs generalizing a k with
  | nil => rfl
  | cons v vs ih =>
    rw [List.length_cons] at h
    have hwf := Memory.wfFrom_ofBytesFrom vs (a + 1) (by omega)
    cases k with
    | zero =>
      simp only [Memory.ofBytesFrom]
      split
      · rename_i hv
        simpa [hv] using Memory.lookup_below hwf (Nat.lt_succ_self a)
      · simp [Memory.lookup]
    | succ k =>
      have hrest := ih (a := a + 1) (by omega) k
      rw [Nat.add_right_comm] at hrest
      simp only [Memory.ofBytesFrom]
      split
      · simpa [Nat.add_assoc] using hrest
      · simpa [Memory.lookup, Nat.add_assoc] using hrest

/-- A loaded image reads back from address 0, with the fill after it (R37). -/
theorem imageMemory_read {image : List Byte} (h : image.length ≤ 256) (a : Addr) :
    (imageMemory image).read a = (image[a.toNat]?).getD 0x00 := by
  have := Memory.lookup_ofBytesFrom (a := 0) (by omega) a.toNat (bs := image)
  rwa [Nat.zero_add] at this

theorem System.act_load {y : System} {image : List Byte} (hl : y.launched = false) (h : image.length ≤ 256) :
    y.act (.load image) = .next { y with core := { y.core with mem := imageMemory image } } := by
  simp [System.act, hl, Nat.not_lt.2 h]

/-- Settles O54: an image that fits becomes a canonical memory that reads back, a longer one is refused. -/
theorem loadedImageReadsBack : Obligations.LoadedImageReadsBack := by
  intro y image hl
  refine ⟨fun h => ?_, fun h => ?_⟩
  · exact ⟨imageMemory image, System.act_load hl h, imageMemory_wf h, imageMemory_read h⟩
  · simp [System.act, hl, h]

/-! ## The launch sequence -/

/-- Host actions go on from the state the actions before them leave. -/
theorem System.acts_append {y z : System} {as : List HostAction} (h : y.acts as = .next z) (bs : List HostAction) :
    y.acts (as ++ bs) = z.acts bs := by
  induction as generalizing y with
  | nil =>
    cases h
    rfl
  | cons a as ih =>
    simp only [System.acts, List.cons_append] at h ⊢
    split at h
    · exact ih h
    · cases h
    · cases h

/-- Seeding registers before launch writes those registers with their seeds and changes nothing else (R12). -/
theorem System.acts_seeds {y : System} (hl : y.launched = false) (seeds : Vector Byte 8) (is : List (Fin 8)) :
    ∃ x : Vector Byte 8, y.acts (is.map fun i => .seed i seeds[i]) = .next { y with core := { y.core with x := x } } ∧
      (∀ i ∈ is, x[i] = seeds[i]) ∧ ∀ i, i ∉ is → x[i] = y.core.x[i] := by
  induction is generalizing y with
  | nil => exact ⟨y.core.x, rfl, nofun, fun _ _ => rfl⟩
  | cons i is ih =>
    obtain ⟨x, hacts, hin, hout⟩ := ih (y := { y with core := y.core.setReg i seeds[i] }) hl
    refine ⟨x, ?_, ?_, ?_⟩
    · simpa [System.acts, System.act, hl] using hacts
    · intro j hj
      by_cases hmem : j ∈ is
      · exact hin j hmem
      · obtain rfl : j = i := (List.mem_cons.1 hj).resolve_right hmem
        rw [hout j hmem]
        exact (State.reg_setReg y.core j j seeds[j]).trans (if_pos rfl)
    · intro j hj
      obtain ⟨hne, hmem⟩ := not_or.1 (mt List.mem_cons.2 hj)
      rw [hout j hmem]
      exact (State.reg_setReg y.core i j seeds[i]).trans (if_neg (Ne.symm hne))

/-- Seeding all eight registers leaves exactly the seeds. -/
theorem System.acts_seed_all {y : System} (hl : y.launched = false) (seeds : Vector Byte 8) :
    y.acts (List.ofFn fun i : Fin 8 => .seed i seeds[i]) = .next { y with core := { y.core with x := seeds } } := by
  obtain ⟨x, hacts, hin, -⟩ := System.acts_seeds hl seeds (List.finRange 8)
  obtain rfl : x = seeds := Vector.ext fun i hi => hin ⟨i, hi⟩ (List.mem_finRange _)
  rw [List.ofFn_eq_map, hacts]

/-- Settles O55: reset and load, then the seeds, then the launch, each from where the one before leads. -/
theorem launchSequenceGivesLaunchState : Obligations.LaunchSequenceGivesLaunchState := by
  intro y image seeds input h
  have hload : y.acts [.reset, .load image] =
      .next { core := { y.core.hostReset with mem := imageMemory image }, launched := false } := by
    simp [System.acts, System.act, Nat.not_lt.2 h]
  rw [List.append_assoc, System.acts_append hload, System.acts_append (System.acts_seed_all rfl seeds)]
  rfl

/-! ## When the host may act -/

/-- The dump lists every byte of memory at its address (R165). -/
theorem Memory.dump_getElem? (m : Memory) (a : Addr) : m.dump[a.toNat]? = some (m.read a) := by
  have ha : a.toNat < 256 := a.isLt
  simp [Memory.dump, ha]

/-- Settles O56: each action and the tick look at the launched bit first, inspection also at `halted`. -/
theorem hostActsOnlyWhenAllowed : Obligations.HostActsOnlyWhenAllowed := by
  intro y
  refine ⟨fun hl => ?_, fun hl t ht => ?_, fun hl image input i v => ?_, fun hl hh => ?_, fun h => ?_⟩
  · simp [System.tick, hl]
  · simp [System.tick, hl, ht]
  · simp [System.act, hl]
  · simp [System.inspect, hl, hh]
  · have hallowed : (y.launched && !y.core.halted) = false := by
      rcases h with h | h <;> simp [h]
    refine ⟨_, if_neg (by simp [hallowed]), rfl, rfl, rfl, rfl, rfl, rfl, rfl, ?_⟩
    exact Memory.dump_getElem? y.core.mem

end Sys2Proof.Machine
